-- ==== Sys2Proof/Word.lean ====
section
/-! DEFINITION. The word types of the CORE (R7, R23, R25, R26): all values are unsigned. -/

namespace Sys2Proof

/-- An 8-bit cell of memory, a general register, a timer, a framebuffer cell (R20, R23, R30, R34). -/
abbrev Byte := BitVec 8

/-- A 16-bit value: an instruction word, `I`, `pc`, a stack entry (R25, R26, R28, R90). -/
abbrev Word := BitVec 16

/-- The number of a general register, 0 to 15 (R23, R94). -/
abbrev Reg := Fin 16

end Sys2Proof
end

