-- ==== Sys2Proof/Syntax.lean ====
section
/-! DEFINITION. The instructions: one constructor per row of `spec/opcode_table.json` (R99 to R104),
with the operands the row's format gives it (R92 to R94). -/

namespace Sys2Proof

/-- An instruction of the CORE. `x` and `y` are register numbers (R94); `nn` is the 8-bit immediate;
`nnn` is the 12-bit immediate as "the 16-bit value `zext_16(w[11:0])`" and `n` is "the natural number
`w[3:0]`, 0 to 15" (R93): `WellFormed.lean` bounds these two. -/
inductive Instr where
  | ret
  | jp (nnn : Word)
  | call (nnn : Word)
  | sei (x : Reg) (nn : Byte)
  | snei (x : Reg) (nn : Byte)
  | ser (x y : Reg)
  | movi (x : Reg) (nn : Byte)
  | addi (x : Reg) (nn : Byte)
  | mov (x y : Reg)
  | or (x y : Reg)
  | and (x y : Reg)
  | xor (x y : Reg)
  | add (x y : Reg)
  | subr (x y : Reg)
  | shr (x y : Reg)
  | shl (x y : Reg)
  | sner (x y : Reg)
  | iset (nnn : Word)
  | drw (x y : Reg) (n : Nat)
  | skp (x : Reg)
  | sknp (x : Reg)
  | gdt (x : Reg)
  | wkey (x : Reg)
  | sdt (x : Reg)
  | sst (x : Reg)
  | iadd (x : Reg)
  | ifont (x : Reg)
  | bcd (x : Reg)
  | stm (x : Reg)
  | ldm (x : Reg)
deriving DecidableEq, Repr

end Sys2Proof
end

