-- ==== Sys2Proof/WellFormed.lean ====
section
/-! DEFINITION. Which terms of `Instr` some instruction word stands for (R93). The types of the other
operands leave no value outside their field. -/

namespace Sys2Proof

/-- `NNN` is in `0x000 .. 0xFFF` (JP, CALL, ISET) and `N` in 0 to 15 (DRW), as R93 gives their ranges. -/
def Instr.wellFormed : Instr → Bool
  | .jp nnn => nnn.toNat ≤ 0xFFF
  | .call nnn => nnn.toNat ≤ 0xFFF
  | .iset nnn => nnn.toNat ≤ 0xFFF
  | .drw _ _ n => n ≤ 15
  | .ret | .sei _ _ | .snei _ _ | .ser _ _ | .movi _ _ | .addi _ _ | .mov _ _ | .or _ _ | .and _ _
  | .xor _ _ | .add _ _ | .subr _ _ | .shr _ _ | .shl _ _ | .sner _ _ | .skp _ | .sknp _ | .gdt _
  | .wkey _ | .sdt _ | .sst _ | .iadd _ | .ifont _ | .bcd _ | .stm _ | .ldm _ => true

end Sys2Proof
end

