-- ==== Sys2Proof/Decode.lean ====
section
/-! DEFINITION. The instruction word, its fields, the opcode table (a ROM, R98), the lookup and the
decoder, total on any bytes; then the encoder (R109), written from the same tables. -/

namespace Sys2Proof

/-- Two memory bytes as an instruction word, `high_byte << 8 | low_byte` (R62). -/
def composeWord (hi lo : Byte) : Word := hi ++ lo

/-- `w[15:8]`, the byte at the lower address (R62, R109). -/
def highByte (w : Word) : Byte := w.extractLsb' 8 8

/-- `w[7:0]`, the byte at the next address (R62, R109). -/
def lowByte (w : Word) : Byte := w.extractLsb' 0 8

/-- `nibble(w, i) = (w >> (4*i)) AND 0xF` (R8); nibble 0 is the least significant. -/
def nibble (w : Word) (i : Nat) : BitVec 4 := w.extractLsb' (4 * i) 4

/-- `OP = w[15:12]`, the bucket key (R91). -/
def fieldOP (w : Word) : BitVec 4 := nibble w 3

/-- `X = w[11:8]` (R91). -/
def fieldX (w : Word) : Reg := (nibble w 2).toFin

/-- `Y = w[7:4]` (R91). -/
def fieldY (w : Word) : Reg := (nibble w 1).toFin

/-- `N = w[3:0]`, as a natural number (R91, R93). -/
def fieldN (w : Word) : Nat := (nibble w 0).toNat

/-- `NN = w[7:0]` (R91). -/
def fieldNN (w : Word) : Byte := w.extractLsb' 0 8

/-- `NNN = w[11:0]`, zero-extended to 16 bits (R91, R93). -/
def fieldNNN (w : Word) : Word := (w.extractLsb' 0 12).setWidth 16

/-- An entry of the opcode table (R95): a mask, a value, and the instruction the entry stands for,
with the word's operand fields read by the entry's format (R92). The entry's execute behaviour is
`Machine.exec` of that instruction and its disassemble behaviour is `Machine.instrText`. -/
structure Entry where
  mask : Word
  value : Word
  build : Word → Instr

/-- `(instruction & mask) == value` (R96). -/
def Entry.Matches (e : Entry) (w : Word) : Bool := (w &&& e.mask) == e.value

/-- Buckets 0 to 7 of the table (R100 to R102). -/
def bucketLow : Nat → Option (List Entry)
  | 0x0 => some [⟨0xFFFF, 0x00EE, fun _ => .ret⟩]
  | 0x1 => some [⟨0xF000, 0x1000, fun w => .jp (fieldNNN w)⟩]
  | 0x2 => some [⟨0xF000, 0x2000, fun w => .call (fieldNNN w)⟩]
  | 0x3 => some [⟨0xF000, 0x3000, fun w => .sei (fieldX w) (fieldNN w)⟩]
  | 0x4 => some [⟨0xF000, 0x4000, fun w => .snei (fieldX w) (fieldNN w)⟩]
  | 0x5 => some [⟨0xF00F, 0x5000, fun w => .ser (fieldX w) (fieldY w)⟩]
  | 0x6 => some [⟨0xF000, 0x6000, fun w => .movi (fieldX w) (fieldNN w)⟩]
  | 0x7 => some [⟨0xF000, 0x7000, fun w => .addi (fieldX w) (fieldNN w)⟩]
  | _ => none

/-- Bucket 8: the register-register forms (R102). -/
def bucket8 : List Entry :=
  [⟨0xF00F, 0x8000, fun w => .mov (fieldX w) (fieldY w)⟩,
   ⟨0xF00F, 0x8001, fun w => .or (fieldX w) (fieldY w)⟩,
   ⟨0xF00F, 0x8002, fun w => .and (fieldX w) (fieldY w)⟩,
   ⟨0xF00F, 0x8003, fun w => .xor (fieldX w) (fieldY w)⟩,
   ⟨0xF00F, 0x8004, fun w => .add (fieldX w) (fieldY w)⟩,
   ⟨0xF00F, 0x8005, fun w => .subr (fieldX w) (fieldY w)⟩,
   ⟨0xF00F, 0x8006, fun w => .shr (fieldX w) (fieldY w)⟩,
   ⟨0xF00F, 0x800E, fun w => .shl (fieldX w) (fieldY w)⟩]

/-- Bucket E: two stubs (R104). -/
def bucketE : List Entry :=
  [⟨0xF0FF, 0xE09E, fun w => .skp (fieldX w)⟩,
   ⟨0xF0FF, 0xE0A1, fun w => .sknp (fieldX w)⟩]

/-- Bucket F: five stubs and the index and memory forms (R104). -/
def bucketF : List Entry :=
  [⟨0xF0FF, 0xF007, fun w => .gdt (fieldX w)⟩,
   ⟨0xF0FF, 0xF00A, fun w => .wkey (fieldX w)⟩,
   ⟨0xF0FF, 0xF015, fun w => .sdt (fieldX w)⟩,
   ⟨0xF0FF, 0xF018, fun w => .sst (fieldX w)⟩,
   ⟨0xF0FF, 0xF01E, fun w => .iadd (fieldX w)⟩,
   ⟨0xF0FF, 0xF029, fun w => .ifont (fieldX w)⟩,
   ⟨0xF0FF, 0xF033, fun w => .bcd (fieldX w)⟩,
   ⟨0xF0FF, 0xF055, fun w => .stm (fieldX w)⟩,
   ⟨0xF0FF, 0xF065, fun w => .ldm (fieldX w)⟩]

/-- The opcode table, keyed by the high nibble (R95, R99 to R104). `none`: the bucket is absent,
which is so of buckets `0xB` and `0xC`. -/
def bucket (key : BitVec 4) : Option (List Entry) :=
  match key.toNat with
  | 0x8 => some bucket8
  | 0x9 => some [⟨0xF00F, 0x9000, fun w => .sner (fieldX w) (fieldY w)⟩]
  | 0xA => some [⟨0xF000, 0xA000, fun w => .iset (fieldNNN w)⟩]
  | 0xB => none
  | 0xC => none
  | 0xD => some [⟨0xF000, 0xD000, fun w => .drw (fieldX w) (fieldY w) (fieldN w)⟩]
  | 0xE => some bucketE
  | 0xF => some bucketF
  | k => bucketLow k

/-- `Lookup(w)` (R96): the first entry, in list order, of the bucket `w[15:12]` that matches;
`none` when the bucket is absent or no entry of it matches. -/
def lookup (w : Word) : Option Entry :=
  match bucket (fieldOP w) with
  | none => none
  | some entries => entries.find? (fun e => e.Matches w)

/-- The instruction a word stands for; `none` for an unknown word (R105, R109). -/
def decodeWord (w : Word) : Option Instr := (lookup w).map (fun e => e.build w)

/-- Why bytes give no instruction. -/
inductive DecodeError where
  /-- No table entry matches the word: the unknown-instruction condition (R105, R125). -/
  | unknownInstruction (w : Word)
  /-- Fewer than two bytes: not a whole instruction (R90). The fetch never gives such a list. -/
  | truncated
deriving DecidableEq, Repr

/-- The decoder on bytes: the instruction of the first two bytes (R62, R90) and the bytes after it. -/
def decode : List Byte → Except DecodeError (Instr × List Byte)
  | hi :: lo :: rest =>
    match decodeWord (composeWord hi lo) with
    | some i => .ok (i, rest)
    | none => .error (.unknownInstruction (composeWord hi lo))
  | _ => .error .truncated

/-- A register number in the `X` field, bits 11 to 8 (R109). -/
def placeX (x : Reg) : Word := BitVec.ofNat 16 x.val <<< 8

/-- A register number in the `Y` field, bits 7 to 4 (R109). -/
def placeY (y : Reg) : Word := BitVec.ofNat 16 y.val <<< 4

/-- The instruction word, `value OR operand bits`, by the formats of R92 (R109). -/
def encode : Instr → Word
  | .ret => 0x00EE
  | .jp nnn => 0x1000 ||| nnn
  | .call nnn => 0x2000 ||| nnn
  | .sei x nn => 0x3000 ||| placeX x ||| nn.setWidth 16
  | .snei x nn => 0x4000 ||| placeX x ||| nn.setWidth 16
  | .ser x y => 0x5000 ||| placeX x ||| placeY y
  | .movi x nn => 0x6000 ||| placeX x ||| nn.setWidth 16
  | .addi x nn => 0x7000 ||| placeX x ||| nn.setWidth 16
  | .mov x y => 0x8000 ||| placeX x ||| placeY y
  | .or x y => 0x8001 ||| placeX x ||| placeY y
  | .and x y => 0x8002 ||| placeX x ||| placeY y
  | .xor x y => 0x8003 ||| placeX x ||| placeY y
  | .add x y => 0x8004 ||| placeX x ||| placeY y
  | .subr x y => 0x8005 ||| placeX x ||| placeY y
  | .shr x y => 0x8006 ||| placeX x ||| placeY y
  | .shl x y => 0x800E ||| placeX x ||| placeY y
  | .sner x y => 0x9000 ||| placeX x ||| placeY y
  | .iset nnn => 0xA000 ||| nnn
  | .drw x y n => 0xD000 ||| placeX x ||| placeY y ||| BitVec.ofNat 16 n
  | .skp x => 0xE09E ||| placeX x
  | .sknp x => 0xE0A1 ||| placeX x
  | .gdt x => 0xF007 ||| placeX x
  | .wkey x => 0xF00A ||| placeX x
  | .sdt x => 0xF015 ||| placeX x
  | .sst x => 0xF018 ||| placeX x
  | .iadd x => 0xF01E ||| placeX x
  | .ifont x => 0xF029 ||| placeX x
  | .bcd x => 0xF033 ||| placeX x
  | .stm x => 0xF055 ||| placeX x
  | .ldm x => 0xF065 ||| placeX x

/-- The two memory bytes, `w[15:8]` at the lower address (R109). -/
def encodeBytes (i : Instr) : List Byte := [highByte (encode i), lowByte (encode i)]

/-! ### The formats of R92 as layouts, most significant nibble first, for the claims -/

/-- Format `A`: an opcode nibble and `NNN` (R92). -/
def layoutA (op : BitVec 4) (nnn : BitVec 12) : Word := op ++ nnn

/-- Format `XI`: an opcode nibble, `X` and `NN`; with a fixed `NN` it is format `XF` (R92). -/
def layoutXI (op : BitVec 4) (x : Reg) (nn : Byte) : Word := op ++ (BitVec.ofFin x : BitVec 4) ++ nn

/-- Format `XYN`: an opcode nibble, `X`, `Y` and `N`; with a fixed `N` it is format `XY` (R92). -/
def layoutXYN (op : BitVec 4) (x y : Reg) (n : BitVec 4) : Word :=
  op ++ (BitVec.ofFin x : BitVec 4) ++ (BitVec.ofFin y : BitVec 4) ++ n

/-- The word whose bits are the `nbits` low bits of `w`, as `spec/opcode_table.json` numbers them
(R90: every row has 16 bits, in one word). -/
def tableWord (nbits w : Nat) : Word := BitVec.ofNat 16 (w % 2 ^ nbits)

/-- The instruction the decoder reads from the bytes of a table word, high byte first (R62). -/
def decodeTableWord (nbits w : Nat) : Option Instr :=
  match decode [highByte (tableWord nbits w), lowByte (tableWord nbits w)] with
  | .ok (i, _) => some i
  | .error _ => none

end Sys2Proof
end

