-- ==== Sys2Proof/Config.lean ====
section
/-! DEFINITION. The parameters of the hardware (R6): the fixed ones as constants, the three OPEN ones
(`FB_COLS`, `FB_ROWS`, `FONT`) as a structure that the machine carries and no step changes. -/

namespace Sys2Proof

/-- The OPEN parameters of R6 (D2, D3): named values "the model takes as an argument", fixed for the
life of a machine. The model carries them in `State.config`, so that a statement about every state is
a statement about every size of the framebuffer and every font. DESIGN CHOICE, log entry 1. -/
structure Config where
  /-- `FB_COLS`, the number of columns of the framebuffer (R34). -/
  fbCols : Nat
  /-- `FB_ROWS`, the number of rows of the framebuffer (R34). -/
  fbRows : Nat
  /-- `FONT`, the 80 font bytes: byte `5*g + r` is row `r` of glyph `g` (R21, R22). -/
  font : Vector Byte 80
deriving DecidableEq, Repr

namespace Config

/-- The default `FONT` (the table of R22), glyphs 0 to 7. -/
def fontLow : Vector Byte 40 :=
  #v[0xF0, 0x90, 0x90, 0x90, 0xF0,
     0x20, 0x60, 0x20, 0x20, 0x70,
     0xF0, 0x10, 0xF0, 0x80, 0xF0,
     0xF0, 0x10, 0xF0, 0x10, 0xF0,
     0x90, 0x90, 0xF0, 0x10, 0x10,
     0xF0, 0x80, 0xF0, 0x10, 0xF0,
     0xF0, 0x80, 0xF0, 0x90, 0xF0,
     0xF0, 0x10, 0x20, 0x40, 0x40]

/-- The default `FONT` (the table of R22), glyphs 8 to F. -/
def fontHigh : Vector Byte 40 :=
  #v[0xF0, 0x90, 0xF0, 0x90, 0xF0,
     0xF0, 0x90, 0xF0, 0x10, 0xF0,
     0xF0, 0x90, 0xF0, 0x90, 0x90,
     0xE0, 0x90, 0xE0, 0x90, 0xE0,
     0xF0, 0x80, 0x80, 0x80, 0xF0,
     0xE0, 0x90, 0x90, 0x90, 0xE0,
     0xF0, 0x80, 0xF0, 0x80, 0xF0,
     0xF0, 0x80, 0xF0, 0x80, 0x80]

/-- The defaults "the spec uses in every example" (R6): 64 columns, 32 rows (D2), the font of R22 (D3). -/
def default : Config := ⟨64, 32, fontLow ++ fontHigh⟩

/-- `FB_COLS` and `FB_ROWS` are "positive naturals" (D2). -/
def wf (c : Config) : Bool := 0 < c.fbCols && 0 < c.fbRows

end Config

/-- `MEM_SIZE` (R6, R20): addresses `0x000` to `0xFFF`. -/
abbrev memSize : Nat := 0x1000

/-- `FONT_SIZE` (R6, R21); `FONT_BASE` is `0x000`. -/
abbrev fontSize : Nat := 80

/-- `PROG_BASE` (R6, R61): where the image is loaded and where `pc` starts. -/
abbrev progBase : Nat := 0x200

/-- `MAX_PROG_LEN = 4096 - 0x200` (R6, R251). -/
abbrev maxProgLen : Nat := 3584

/-- `STACK_DEPTH` (R6, R28). -/
abbrev stackDepth : Nat := 16

/-- `FLAG_REG` (R6, R24): `VF` is general register 15. -/
abbrev flagReg : Reg := 15

/-- `PIXEL_OFF` (R6, R34). -/
abbrev pixelOff : Byte := 0x00

/-- `PIXEL_ON` (R6, R34). -/
abbrev pixelOn : Byte := 0xFF

/-- `SPRITE_WIDTH` (R6): each sprite row is exactly 8 pixels wide (R190). -/
abbrev spriteWidth : Nat := 8

end Sys2Proof
end

