-- ==== Sys2Proof/Machine/State.lean ====
section
/-! DEFINITION. The Machine State (R20 to R37): plain data, every piece of state the spec gives the
machine, and the state after reset. -/

namespace Sys2Proof.Machine

/-- Why `halted` was set: the values of the 3-bit register `halt_cause` (R32, R221). The code of each
is `HaltCause.code`; code 7 "is never written". -/
inductive HaltCause where
  /-- 0: not halted. -/
  | none
  /-- 1, a Halt: the fetched word matches no table entry (R222). -/
  | unknownInstruction
  /-- 2, a Halt: a recognized stub was executed (R223). -/
  | unimplementedInstruction
  /-- 3, a Fatal: CALL with `sp = 16` (R228). -/
  | stackOverflow
  /-- 4, a Fatal: RET with `sp = 0` (R229). -/
  | stackUnderflow
  /-- 5, a Fatal: a data byte address above `0xFFF` in STM, LDM or DRW (R230). -/
  | memOutOfBounds
  /-- 6, a Fatal: a fetch at `pc > 0xFFE` (R231). -/
  | fetchOutOfBounds
deriving DecidableEq, Repr

/-- A store of byte cells by number, in one canonical form: numbers strictly rising, and no cell
listed that holds what an unlisted cell reads as (`Cells.wf`, Machine/Ops.lean). -/
abbrev Cells := List Host.Cell

/-- The Machine (R13, R20 to R34). -/
structure State where
  /-- The OPEN parameters (R6), the model's own field: no step writes it. Log entry 1. -/
  config : Config
  /-- `memory` (R20): unlisted cells read as after reset (`initialByte`). Log entry 4. -/
  mem : Cells
  /-- `V[0]` to `V[15]`; `V[15]` is the flag register `VF` (R23, R24). -/
  regs : Vector Byte 16
  /-- `I`, the index register (R25). -/
  index : Word
  /-- `pc` (R26). -/
  pc : Word
  /-- `stack[0]` to `stack[15]` (R28). -/
  stack : Vector Word 16
  /-- `sp`, the count of stack entries in use (R29). -/
  sp : BitVec 8
  /-- `DT` (R30). -/
  delayTimer : Byte
  /-- `ST` (R30). -/
  soundTimer : Byte
  /-- `key[0]` to `key[15]` (R33). -/
  keys : Vector Bool 16
  /-- `fb` (R34): cell `(row, col)` is number `row * FB_COLS + col`; an unlisted cell is off. Log entry 5. -/
  fb : Cells
  /-- `halted` (R31). -/
  halted : Bool
  /-- `halt_cause` (R32). -/
  haltCause : HaltCause
deriving DecidableEq, Repr

/-- Why a step can stop the model itself. The spec's six conditions are no such stop: they are next
states (R224, R225; log entry 2). -/
inductive Fault where
  /-- Raised by CALL and RET in a state with `sp` in 17 to 255, which no run reaches (R29): the stack
  entry they would name does not exist (R28). Safe: the model stops where the spec says nothing. Log
  entry 3. -/
  | noSuchStackEntry
deriving DecidableEq, Repr

/-- What the model refuses. No instruction refuses. -/
inductive Refusal where
  /-- An instruction with no meaning yet, raised by `exec` only. Safe. -/
  | notModelled (mnemonic : String)
  /-- Raised by `construct` and `listing`: a program image longer than 3584 bytes, which R251 makes a
  precondition ("the model refuses such a construction"). Safe. Log entry 9. -/
  | imageTooLong
  /-- Raised by `fbRead`: "a coordinate outside the grid is not a legal request" (R255). Safe. Log
  entry 9. -/
  | noSuchPixel
deriving DecidableEq, Repr

/-- The state after reset with an empty image, for a given choice of the OPEN parameters (R37, R250). -/
def State.resetWith (c : Config) : State where
  config := c
  mem := []
  regs := Vector.replicate 16 0
  index := 0
  pc := 0x0200
  stack := Vector.replicate 16 0
  sp := 0
  delayTimer := 0
  soundTimer := 0
  keys := Vector.replicate 16 false
  fb := []
  halted := false
  haltCause := .none

/-- The machine right after reset with an empty image (R37, `L = 0`), with the spec's default
parameters (R6). A program is loaded by `construct` (R250). Log entries 1 and 6. -/
def State.reset : State := State.resetWith Config.default

end Sys2Proof.Machine
end

