-- ==== Sys2Proof/Machine/Operands.lean ====
section
/-! DEFINITION. The operand forms: a general register, the registers of a dump or load, the data
address `I + i`, and a pixel of a sprite row. -/

namespace Sys2Proof.Machine

/-- A read of `V[r]`: plain 8-bit storage, register 15 included (R23, R24). -/
def State.reg (s : State) (r : Reg) : Byte := s.regs[r]

/-- `V[r] <- v` (R9, R23). -/
def State.setReg (s : State) (r : Reg) (v : Byte) : State := { s with regs := s.regs.set r v }

/-- The general register numbered `i`, for the loop variable `i` of STM and LDM, 0 to 15 (R183, R184). -/
def regAt (i : Nat) : Reg := Fin.ofNat 16 i

/-- The data address `I + i`, a natural number that never wraps (R66, R67, D27). -/
def State.dataAddr (s : State) (i : Nat) : Nat := s.index.toNat + i

/-- A transfer of `count` bytes at `I` is in range when no byte of it lies above `0xFFF` (R66, R67). -/
def State.dataInRange (s : State) (count : Nat) : Bool :=
  count == 0 || s.dataAddr (count - 1) ≤ 0xFFF

/-- Pixel column `c` of a sprite row is bit `7 - c` of the row byte (R191). -/
def spriteBit (row : Byte) (c : Nat) : Bool := row.getLsbD (7 - c)

end Sys2Proof.Machine
end

