-- ==== Sys2Proof/Machine/Ops.lean ====
section
/-! DEFINITION. The named operations: cell stores, memory, fetch, the framebuffer's cells, the program
counter, and stopping (the Halt and Fatal sequences). -/

namespace Sys2Proof.Machine

/-! ### Stores of cells -/

/-- The cell numbered `a` of a canonical store whose unlisted cells read as `unlisted`. -/
def Cells.read (unlisted : Nat → Byte) : Cells → Nat → Byte
  | [], a => unlisted a
  | (k, v) :: rest, a =>
    if a < k then unlisted a else if a = k then v else Cells.read unlisted rest a

/-- `v` at the front of `rest` under the number `a`, listed only when it is not what `a` reads as
unlisted. -/
def Cells.cons (unlisted : Nat → Byte) (a : Nat) (v : Byte) (rest : Cells) : Cells :=
  if v = unlisted a then rest else (a, v) :: rest

/-- The store with `v` in the cell numbered `a`, in canonical form again. -/
def Cells.write (unlisted : Nat → Byte) : Cells → Nat → Byte → Cells
  | [], a, v => Cells.cons unlisted a v []
  | (k, w) :: rest, a, v =>
    if a < k then Cells.cons unlisted a v ((k, w) :: rest)
    else if a = k then Cells.cons unlisted a v rest
    else (k, w) :: Cells.write unlisted rest a v

/-- The canonical form: numbers strictly rising from at least `lo` and below `bound`, and no cell listed
with the value it reads as when unlisted. -/
def Cells.wf (unlisted : Nat → Byte) (bound : Nat) : Nat → Cells → Bool
  | _, [] => true
  | lo, (k, v) :: rest =>
    lo ≤ k && k < bound && v != unlisted k && Cells.wf unlisted bound (k + 1) rest

/-! ### Memory (R10, R20, R60 to R68) -/

/-- What a memory cell that no write has changed reads as: the reset contents with an empty image,
`FONT` in `0x000 .. 0x04F` and `0x00` elsewhere (R21, R37). -/
def initialByte (c : Config) (a : Nat) : Byte := if h : a < fontSize then c.font[a] else 0x00

/-- The canonical form of `memory`: every listed address is in `0x000 .. 0xFFF` (R20, R60). -/
def Memory.wf (c : Config) (m : Cells) : Bool := Cells.wf (initialByte c) memSize 0 m

/-- `MemRead(a, 1)` for an address in range (R10); the range is checked before (R66). -/
def State.load (s : State) (a : Nat) : Byte := Cells.read (initialByte s.config) s.mem a

/-- `MemWrite(a, 1, v)` for an address in range (R10); the range is checked before (R66). -/
def State.store (s : State) (a : Nat) (v : Byte) : State :=
  { s with mem := Cells.write (initialByte s.config) s.mem a v }

/-- The two bytes of `Fetch(pc)`, the high byte first; in range exactly when `pc <= 0xFFE` (R10, R62,
R122). No alignment is asked (R63). -/
def State.fetchBytes (s : State) : Option (List Byte) :=
  if s.pc.toNat ≤ 0xFFE then some [s.load s.pc.toNat, s.load (s.pc.toNat + 1)] else none

/-! ### The framebuffer's cells (R34) -/

/-- The number of the cell `(row, col)` in the framebuffer's store. -/
def cellNumber (c : Config) (row col : Nat) : Nat := row * c.fbCols + col

/-- `fb[row][col]`. -/
def State.cell (s : State) (row col : Nat) : Byte :=
  Cells.read (fun _ => pixelOff) s.fb (cellNumber s.config row col)

/-- `fb[row][col] <- fb[row][col] XOR 0xFF` (R193). -/
def State.toggleCell (s : State) (row col : Nat) : State :=
  let k := cellNumber s.config row col
  { s with fb := Cells.write (fun _ => pixelOff) s.fb k (s.cell row col ^^^ pixelOn) }

/-- The canonical form of `fb`: every listed cell is inside the grid (R34). -/
def Framebuffer.wf (c : Config) (m : Cells) : Bool :=
  Cells.wf (fun _ => pixelOff) (c.fbRows * c.fbCols) 0 m

/-- Every listed cell holds `0xFF`; with the unlisted ones every cell holds `0x00` or `0xFF` (R34). -/
def Framebuffer.twoValued (m : Cells) : Bool := m.all (fun cell => cell.2 == pixelOn)

/-! ### The program counter (R26, R126) -/

/-- `pc <- pc + 2`, the end of every rule that does not name `pc` (R126). -/
def State.advance (s : State) : State := { s with pc := s.pc + 2 }

/-- A skip: `pc <- pc + 4` when it is taken, else `pc <- pc + 2` (R126, R143 to R146). -/
def State.skipWhen (s : State) (taken : Bool) : State :=
  { s with pc := if taken then s.pc + 4 else s.pc + 2 }

/-! ### Stopping (R11, R220 to R234)

There is no handler, no saved state and no return (R233, R234); only `construct` (Machine/Ports.lean)
clears `halted`. -/

/-- The 3-bit code of a cause (R221). -/
def HaltCause.code : HaltCause → BitVec 3
  | .none => 0
  | .unknownInstruction => 1
  | .unimplementedInstruction => 2
  | .stackOverflow => 3
  | .stackUnderflow => 4
  | .memOutOfBounds => 5
  | .fetchOutOfBounds => 6

/-- The causes of the class Fatal, codes 3 to 6 (R221, R225). -/
def HaltCause.isFatal : HaltCause → Bool
  | .stackOverflow | .stackUnderflow | .memOutOfBounds | .fetchOutOfBounds => true
  | .none | .unknownInstruction | .unimplementedInstruction => false

/-- `raise Halt(c)` (R224) or `raise Fatal(c)` (R225): `halted <- true; halt_cause <- c`; a Halt
advances `pc` by 2 modulo `2^16`, a Fatal leaves it. Nothing else changes. -/
def State.raise (s : State) (c : HaltCause) : State :=
  { s with halted := true, haltCause := c, pc := if c.isFatal then s.pc else s.pc + 2 }

/-- An instruction that moves `count` bytes at `I`: the whole transfer is checked before its first
effect, and one byte out of range makes it `Fatal(MEM_OUT_OF_BOUNDS)` (R66, R67, R230). -/
def State.transfer (s : State) (count : Nat) (effect : State → State) :
    Host.Outcome State Fault Refusal :=
  if s.dataInRange count then .next (effect s) else .next (s.raise .memOutOfBounds)

/-- Stores `V[0]` to `V[count-1]` at `I`, in ascending index order (R183). -/
def State.storeRegs (s : State) : Nat → State
  | 0 => s
  | i + 1 => let t := s.storeRegs i; t.store (t.dataAddr i) (t.reg (regAt i))

/-- Loads `V[0]` to `V[count-1]` from `I`, in ascending index order (R184). -/
def State.loadRegs (s : State) : Nat → State
  | 0 => s
  | i + 1 => let t := s.loadRegs i; t.setReg (regAt i) (t.load (t.dataAddr i))

/-! ### The cycle around the execute behaviour (R121 to R125) -/

/-- A cycle on a halted machine: nothing changes at all (R121). -/
def State.haltedCycle (s : State) : Host.Outcome State Fault Refusal := .next s

/-- A fetch outside memory (R122, R231). -/
def State.fetchFailed (s : State) : Host.Outcome State Fault Refusal := .next (s.raise .fetchOutOfBounds)

/-- A fetched word that stands for no instruction (R125, R222). -/
def State.unknownWord (s : State) : Host.Outcome State Fault Refusal := .next (s.raise .unknownInstruction)

end Sys2Proof.Machine
end

