-- ==== Sys2Proof/Machine/ControlFlow.lean ====
section
/-! DEFINITION. RET, JP, CALL and the four skips (R140 to R147), in the net form of R126: `pc` is the
address of the instruction, and the new `pc` is its value at the end of the cycle. -/

namespace Sys2Proof.Machine

/-- RET pops the most recent return address into `pc`; `sp = 0` is `Fatal(STACK_UNDERFLOW)`; the popped
entry stays in the stack (R140, R229). For `sp` above 16, see `Fault.noSuchStackEntry`. -/
def execRet (s : State) : Host.Outcome State Fault Refusal :=
  if s.sp = 0 then .next (s.raise .stackUnderflow)
  else if h : s.sp.toNat - 1 < stackDepth then
    .next { s with sp := s.sp - 1, pc := s.stack[s.sp.toNat - 1] }
  else .fault .noSuchStackEntry

/-- JP: `pc <- NNN` (R141). -/
def execJp (nnn : Word) (s : State) : Host.Outcome State Fault Refusal :=
  .next { s with pc := nnn }

/-- CALL pushes `pc + 2`, the address of the instruction after it, and jumps; `sp = 16` is
`Fatal(STACK_OVERFLOW)` (R142, R228). For `sp` above 16, see `Fault.noSuchStackEntry`. -/
def execCall (nnn : Word) (s : State) : Host.Outcome State Fault Refusal :=
  if s.sp = 16 then .next (s.raise .stackOverflow)
  else if h : s.sp.toNat < stackDepth then
    .next { s with stack := s.stack.set s.sp.toNat (s.pc + 2), sp := s.sp + 1, pc := nnn }
  else .fault .noSuchStackEntry

/-- SEI: skip the next instruction when `V[X] = NN` (R143). -/
def execSei (x : Reg) (nn : Byte) (s : State) : Host.Outcome State Fault Refusal :=
  .next (s.skipWhen (s.reg x == nn))

/-- SNEI: skip the next instruction when `V[X] != NN` (R144). -/
def execSnei (x : Reg) (nn : Byte) (s : State) : Host.Outcome State Fault Refusal :=
  .next (s.skipWhen (s.reg x != nn))

/-- SER: skip the next instruction when `V[X] = V[Y]` (R145). -/
def execSer (x y : Reg) (s : State) : Host.Outcome State Fault Refusal :=
  .next (s.skipWhen (s.reg x == s.reg y))

/-- SNER: skip the next instruction when `V[X] != V[Y]` (R146). -/
def execSner (x y : Reg) (s : State) : Host.Outcome State Fault Refusal :=
  .next (s.skipWhen (s.reg x != s.reg y))

end Sys2Proof.Machine
end

