-- ==== Sys2Proof/Machine/Display.lean ====
section
/-! DEFINITION. DRW, the XOR sprite blit (R190 to R196). -/

namespace Sys2Proof.Machine

/-- One pixel at `(row, col)`: skipped when it lies outside the framebuffer (R192); otherwise a set
sprite bit toggles its cell (R193) and sets the flag (R194). -/
def State.drawPixel (s : State) (row col : Nat) (bit : Bool) : State :=
  if s.config.fbCols ≤ col ∨ s.config.fbRows ≤ row then s
  else if bit then (s.toggleCell row col).setReg flagReg 0x01
  else s

/-- The first `count` pixels of a sprite row `b`, left to right from column `x0`; the coordinates are
natural numbers that never wrap (R190, R192). -/
def State.drawRow (s : State) (x0 row : Nat) (b : Byte) : Nat → State
  | 0 => s
  | c + 1 => (s.drawRow x0 row b c).drawPixel row (x0 + c) (spriteBit b c)

/-- The first `count` rows of the sprite at `I`, top to bottom from row `y0` (R190). -/
def State.drawRows (s : State) (x0 y0 : Nat) : Nat → State
  | 0 => s
  | r + 1 =>
    let t := s.drawRows x0 y0 r
    t.drawRow x0 (y0 + r) (t.load (t.dataAddr r)) spriteWidth

/-- DRW: the coordinates are latched first, then all `N` row addresses are checked, then `VF` is
cleared, then the rows are drawn (R190, R195). -/
def execDrw (x y : Reg) (n : Nat) (s : State) : Host.Outcome State Fault Refusal :=
  let x0 := (s.reg x).toNat
  let y0 := (s.reg y).toNat
  s.transfer n (fun t => ((t.setReg flagReg 0x00).drawRows x0 y0 n).advance)

end Sys2Proof.Machine
end

