-- ==== Sys2Proof/Machine/IndexMemory.lean ====
section
/-! DEFINITION. The index-register and memory instructions (R180 to R185). -/

namespace Sys2Proof.Machine

/-- ISET: `I <- zext_16(NNN)` (R180). -/
def execIset (nnn : Word) (s : State) : Host.Outcome State Fault Refusal :=
  .next { s with index := nnn }.advance

/-- IADD: `I <- (I + zext_16(V[X])) mod 65536`; no flag (R181, D17). -/
def execIadd (x : Reg) (s : State) : Host.Outcome State Fault Refusal :=
  .next { s with index := BitVec.ofNat 16 (s.index.toNat + (s.reg x).toNat) }.advance

/-- IFONT: `I <- 5 * zext_16(V[X])`, the whole 8-bit value (R182, D29). -/
def execIfont (x : Reg) (s : State) : Host.Outcome State Fault Refusal :=
  .next { s with index := BitVec.ofNat 16 (5 * (s.reg x).toNat) }.advance

/-- STM: stores `V[0]` to `V[X]` at `I`, which is unchanged (R183, D18). -/
def execStm (x : Reg) (s : State) : Host.Outcome State Fault Refusal :=
  s.transfer (x.val + 1) (fun t => (t.storeRegs (x.val + 1)).advance)

/-- LDM: loads `V[0]` to `V[X]` from `I`, which is unchanged (R184, D18). -/
def execLdm (x : Reg) (s : State) : Host.Outcome State Fault Refusal :=
  s.transfer (x.val + 1) (fun t => (t.loadRegs (x.val + 1)).advance)

end Sys2Proof.Machine
end

