-- ==== Sys2Proof/Machine/Flags.lean ====
section
/-! DEFINITION. The arithmetic of the register family and every value the flag register takes as a side
effect (R24, R166 to R169): exact on natural numbers, then narrowed. -/

namespace Sys2Proof.Machine

/-- `(a + b) mod 256` (R161, R166). -/
def sumOf (a b : Byte) : Byte := BitVec.ofNat 8 (a.toNat + b.toNat)

/-- The carry: `0x01` when the unwrapped sum exceeds 255, else `0x00` (R166). -/
def carryOf (a b : Byte) : Byte := if a.toNat + b.toNat > 255 then 0x01 else 0x00

/-- `(a - b) mod 256`, that is `a - b` when `a >= b` and `a - b + 256` when `a < b` (R167). -/
def differenceOf (a b : Byte) : Byte := BitVec.ofNat 8 (a.toNat + 256 - b.toNat)

/-- The borrow: `0x01` when `a < b`, else `0x00` (R167, D7). -/
def borrowOf (a b : Byte) : Byte := if a.toNat < b.toNat then 0x01 else 0x00

/-- The bit a right shift moves out, `v AND 0x01` (R168). -/
def shiftedOutRight (v : Byte) : Byte := v &&& 0x01

/-- `v >> 1` (R168). -/
def shiftedRight (v : Byte) : Byte := v >>> 1

/-- The bit a left shift moves out, `v >> 7`, as `0x00` or `0x01` (R169). -/
def shiftedOutLeft (v : Byte) : Byte := v >>> 7

/-- `(v << 1) mod 256` (R169). -/
def shiftedLeft (v : Byte) : Byte := v <<< 1

end Sys2Proof.Machine
end

