-- ==== Sys2Proof/Machine/RegisterAlu.lean ====
section
/-! DEFINITION. The register and ALU instructions (R160 to R172). None can stop; each ends with
`pc <- pc + 2`. -/

namespace Sys2Proof.Machine

/-- MOVI: `V[X] <- NN` (R160). -/
def execMovi (x : Reg) (nn : Byte) (s : State) : Host.Outcome State Fault Refusal :=
  .next (s.setReg x nn).advance

/-- ADDI: `V[X] <- (V[X] + NN) mod 256`; no flag (R161). -/
def execAddi (x : Reg) (nn : Byte) (s : State) : Host.Outcome State Fault Refusal :=
  .next (s.setReg x (sumOf (s.reg x) nn)).advance

/-- MOV: `V[X] <- V[Y]` (R162). -/
def execMov (x y : Reg) (s : State) : Host.Outcome State Fault Refusal :=
  .next (s.setReg x (s.reg y)).advance

/-- OR: `V[X] <- V[X] OR V[Y]`; no flag (R163, R170). -/
def execOr (x y : Reg) (s : State) : Host.Outcome State Fault Refusal :=
  .next (s.setReg x (s.reg x ||| s.reg y)).advance

/-- AND: `V[X] <- V[X] AND V[Y]`; no flag (R164, R170). -/
def execAnd (x y : Reg) (s : State) : Host.Outcome State Fault Refusal :=
  .next (s.setReg x (s.reg x &&& s.reg y)).advance

/-- XOR: `V[X] <- V[X] XOR V[Y]`; no flag (R165, R170). -/
def execXor (x y : Reg) (s : State) : Host.Outcome State Fault Refusal :=
  .next (s.setReg x (s.reg x ^^^ s.reg y)).advance

/-- ADD: both reads first, then the sum to `V[X]`, then the carry to `VF` (R166, D8). -/
def execAdd (x y : Reg) (s : State) : Host.Outcome State Fault Refusal :=
  let a := s.reg x
  let b := s.reg y
  .next ((s.setReg x (sumOf a b)).setReg flagReg (carryOf a b)).advance

/-- SUBR, the reversed subtraction: both reads first, then `V[Y] - V[X]` to `V[X]`, then the borrow to
`VF` (R167, D7, D8). -/
def execSubr (x y : Reg) (s : State) : Host.Outcome State Fault Refusal :=
  let a := s.reg y
  let b := s.reg x
  .next ((s.setReg x (differenceOf a b)).setReg flagReg (borrowOf a b)).advance

/-- SHR: bit 0 of `V[X]` to `VF` first, then `V[X]`, read again, shifted right; `Y` is ignored
(R168, D28). -/
def execShr (x _y : Reg) (s : State) : Host.Outcome State Fault Refusal :=
  let t := s.setReg flagReg (shiftedOutRight (s.reg x))
  .next (t.setReg x (shiftedRight (t.reg x))).advance

/-- SHL: bit 7 of `V[X]` to `VF` first, then `V[X]`, read again, shifted left; `Y` is ignored
(R169, D28). -/
def execShl (x _y : Reg) (s : State) : Host.Outcome State Fault Refusal :=
  let t := s.setReg flagReg (shiftedOutLeft (s.reg x))
  .next (t.setReg x (shiftedLeft (t.reg x))).advance

end Sys2Proof.Machine
end

