-- ==== Sys2Proof/Machine/Unimplemented.lean ====
section
/-! DEFINITION. The seven halting stubs (R200 to R207): recognized, and their whole effect is
`raise Halt(UNIMPLEMENTED_INSTRUCTION)`. The `X` field is decoded and not used. -/

namespace Sys2Proof.Machine

/-- The execute rule of every stub (R200, R223). -/
def State.stub (s : State) : Host.Outcome State Fault Refusal := .next (s.raise .unimplementedInstruction)

/-- SKP: halts; `key` is not read (R201). -/
def execSkp (_x : Reg) (s : State) : Host.Outcome State Fault Refusal := s.stub

/-- SKNP: halts; `key` is not read (R202). -/
def execSknp (_x : Reg) (s : State) : Host.Outcome State Fault Refusal := s.stub

/-- GDT: halts; `DT` is not read (R203). -/
def execGdt (_x : Reg) (s : State) : Host.Outcome State Fault Refusal := s.stub

/-- WKEY: halts; it does not wait (R204). -/
def execWkey (_x : Reg) (s : State) : Host.Outcome State Fault Refusal := s.stub

/-- SDT: halts; `DT` is not written (R205). -/
def execSdt (_x : Reg) (s : State) : Host.Outcome State Fault Refusal := s.stub

/-- SST: halts; `ST` is not written (R206). -/
def execSst (_x : Reg) (s : State) : Host.Outcome State Fault Refusal := s.stub

/-- BCD: halts; memory is not written and `I` is not bound-checked (R207). -/
def execBcd (_x : Reg) (s : State) : Host.Outcome State Fault Refusal := s.stub

end Sys2Proof.Machine
end

