-- ==== Sys2Proof/Machine/Step.lean ====
section
/-! DEFINITION. One `cycle` (R120 to R128). -/

namespace Sys2Proof.Machine

/-- The cycle (R128): halted gate, fetch bound, lookup, execute behaviour, in that order (R227). It is
the one step of the machine; the boolean the cycle returns is the next state's `halted` (R127). -/
def step (s : State) : Host.Outcome State Fault Refusal :=
  if s.halted then s.haltedCycle
  else match s.fetchBytes with
    | none => s.fetchFailed
    | some bytes =>
      match decode bytes with
      | .ok (i, _) => exec i s
      | .error _ => s.unknownWord

/-- `s` with the table word `w` stored where the next cycle fetches, so that `step` of it runs exactly
that instruction: the two bytes at `pc` and `pc + 1` (R62, R109). A halted machine fetches nothing and
one with `pc > 0xFFE` fetches outside memory, so such an `s` is first made running, or its `pc` set to
the program base. Log entry 6. -/
def State.withFetchWord (s : State) (nbits w : Nat) : State :=
  let running := if s.halted then { s with halted := false, haltCause := .none } else s
  let placed := if running.pc.toNat ≤ 0xFFE then running else { running with pc := 0x0200 }
  (placed.store placed.pc.toNat (highByte (tableWord nbits w))).store (placed.pc.toNat + 1)
    (lowByte (tableWord nbits w))

end Sys2Proof.Machine
end

