-- ==== Sys2Proof/Machine/Disasm.lean ====
section
/-! DEFINITION. The disassembler (R210 to R212): the text of every instruction word, from the same
lookup as execution. It reads no state and changes none. -/

namespace Sys2Proof.Machine

/-- An upper-case hexadecimal digit (R107). -/
def hexDigit (v : Nat) : Char := if v < 10 then Char.ofNat (48 + v) else Char.ofNat (55 + v)

/-- `v` in `digits` upper-case hexadecimal digits, leading zeros kept (R211). -/
def hexText : Nat → Nat → String
  | 0, _ => ""
  | digits + 1, v => hexText digits (v / 16) ++ String.singleton (hexDigit (v % 16))

/-- `V` and the hexadecimal digit of the register number (R106). -/
def regText (r : Reg) : String := "V" ++ String.singleton (hexDigit r.val)

/-- A line of format `A`: one 12-bit immediate (R107). -/
def lineA (mnemonic : String) (nnn : Word) : String := mnemonic ++ " 0x" ++ hexText 3 nnn.toNat

/-- A line of format `XI`: a register and an 8-bit immediate (R107). -/
def lineXI (mnemonic : String) (x : Reg) (nn : Byte) : String :=
  mnemonic ++ " " ++ regText x ++ ", 0x" ++ hexText 2 nn.toNat

/-- A line of format `XY`: two registers (R107). -/
def lineXY (mnemonic : String) (x y : Reg) : String :=
  mnemonic ++ " " ++ regText x ++ ", " ++ regText y

/-- A line of format `XYN`: two registers and a 4-bit immediate (R107). -/
def lineXYN (mnemonic : String) (x y : Reg) (n : Nat) : String :=
  mnemonic ++ " " ++ regText x ++ ", " ++ regText y ++ ", 0x" ++ hexText 1 n

/-- A line of format `XF`: one register (R107). -/
def lineXF (mnemonic : String) (x : Reg) : String := mnemonic ++ " " ++ regText x

/-- The assembler line of an instruction (R107, R211). -/
def instrText : Instr → String
  | .ret => "RET"
  | .jp nnn => lineA "JP" nnn
  | .call nnn => lineA "CALL" nnn
  | .sei x nn => lineXI "SEI" x nn
  | .snei x nn => lineXI "SNEI" x nn
  | .ser x y => lineXY "SER" x y
  | .movi x nn => lineXI "MOVI" x nn
  | .addi x nn => lineXI "ADDI" x nn
  | .mov x y => lineXY "MOV" x y
  | .or x y => lineXY "OR" x y
  | .and x y => lineXY "AND" x y
  | .xor x y => lineXY "XOR" x y
  | .add x y => lineXY "ADD" x y
  | .subr x y => lineXY "SUBR" x y
  | .shr x y => lineXY "SHR" x y
  | .shl x y => lineXY "SHL" x y
  | .sner x y => lineXY "SNER" x y
  | .iset nnn => lineA "ISET" nnn
  | .drw x y n => lineXYN "DRW" x y n
  | .skp x => lineXF "SKP" x
  | .sknp x => lineXF "SKNP" x
  | .gdt x => lineXF "GDT" x
  | .wkey x => lineXF "WKEY" x
  | .sdt x => lineXF "SDT" x
  | .sst x => lineXF "SST" x
  | .iadd x => lineXF "IADD" x
  | .ifont x => lineXF "IFONT" x
  | .bcd x => lineXF "BCD" x
  | .stm x => lineXF "STM" x
  | .ldm x => lineXF "LDM" x

/-- The placeholder of an unmatched word (R212). -/
def unknownText (w : Word) : String := "UNKNOWN 0x" ++ hexText 4 w.toNat

/-- `Disasm(w)` (R210): total on all words, and it prints a stub by its own mnemonic. -/
def disasm (w : Word) : String :=
  match decodeWord w with
  | some i => instrText i
  | none => unknownText w

end Sys2Proof.Machine
end

