-- ==== Sys2Proof/Machine/Ports.lean ====
section
/-! DEFINITION. The host's transactions (R38, R250 to R258): each is atomic and lands between cycles. -/

namespace Sys2Proof.Machine

/-- `memory[0x200 + k] <- image[k]` for the image bytes in order, from address `a` on (R21, R250). -/
def State.loadImage (s : State) (a : Nat) : List Byte → State
  | [] => s
  | b :: rest => (s.store a b).loadImage (a + 1) rest

/-- `construct(image, L)` (R250), for the parameters `c`: it depends on nothing of an earlier machine,
so it is also the reset of a running or halted one. An image over 3584 bytes is refused (R251). -/
def construct (c : Config) (image : List Byte) : Host.Outcome State Fault Refusal :=
  if image.length ≤ maxProgLen then .next ((State.resetWith c).loadImage progBase image)
  else .refused .imageTooLong

/-- `cycle` with the boolean it returns: `halted` as it stands after the cycle (R127, R253). -/
def cycle (s : State) : Host.Outcome (State × Bool) Fault Refusal :=
  match step s with
  | .next t => .next (t, t.halted)
  | .fault f => .fault f
  | .refused r => .refused r

/-- The `halted` output (R31, R254). -/
def haltedOut (s : State) : Bool := s.halted

/-- The `halt_cause` output, 3 bits (R32, R254). -/
def haltCauseOut (s : State) : BitVec 3 := s.haltCause.code

/-- `fb_read(row, col)`: a cell of the grid; a coordinate outside it is not a legal request (R255). -/
def fbRead (s : State) (row col : Nat) : Host.Outcome Byte Fault Refusal :=
  if row < s.config.fbRows ∧ col < s.config.fbCols then .next (s.cell row col)
  else .refused .noSuchPixel

/-- The word at address `a`, as a fetch composes it (R62, R213). -/
def State.wordAt (s : State) (a : Nat) : Word := composeWord (s.load a) (s.load (a + 1))

/-- The `count` lines of a linear disassembly from address `a` on, two bytes a line (R213). -/
def State.linesFrom (s : State) (a : Nat) : Nat → List String
  | 0 => []
  | count + 1 => disasm (s.wordAt a) :: s.linesFrom (a + 2) count

/-- `listing(L)`: `ceil(L / 2)` lines from `0x200` on, of the current content of memory (R213). A
program of more than 3584 bytes is none (R251). -/
def listing (s : State) (len : Nat) : Host.Outcome (List String) Fault Refusal :=
  if len ≤ maxProgLen then .next (s.linesFrom progBase ((len + 1) / 2)) else .refused .imageTooLong

/-- The joined form of a listing: one line feed between strings and no trailing one (R213). -/
def joinedListing (lines : List String) : String := String.intercalate "\n" lines

/-- The line of the instruction the next cycle fetches, for a host that traces (R214); none when the
fetch would leave memory. -/
def traceText (s : State) : Option String :=
  if s.pc.toNat ≤ 0xFFE then some (disasm (s.wordAt s.pc.toNat)) else none

/-- `key_write(k, b)` (R257). -/
def keyWrite (s : State) (k : Fin 16) (b : Bool) : State := { s with keys := s.keys.set k b }

/-- The two timers (R30). -/
inductive Timer where
  | delay
  | sound
deriving DecidableEq, Repr

/-- `timer_write(which, v)` (R257). -/
def timerWrite (s : State) (which : Timer) (v : Byte) : State :=
  match which with
  | .delay => { s with delayTimer := v }
  | .sound => { s with soundTimer := v }

/-- The host's transactions that change the machine (R38). The readouts change nothing. -/
inductive Transaction where
  | construct (image : List Byte)
  | cycle
  | keyWrite (k : Fin 16) (b : Bool)
  | timerWrite (which : Timer) (v : Byte)
deriving DecidableEq, Repr

/-- The effect of one transaction; reset keeps the machine's parameters, which are fixed for its life
(D2). -/
def State.transact (s : State) : Transaction → Host.Outcome State Fault Refusal
  | .construct image => Sys2Proof.Machine.construct s.config image
  | .cycle => step s
  | .keyWrite k b => .next (Sys2Proof.Machine.keyWrite s k b)
  | .timerWrite which v => .next (Sys2Proof.Machine.timerWrite s which v)

/-- A sequence of transactions, one after the other (R74): it ends at the first that gives no machine. -/
def State.transactAll (s : State) : List Transaction → Host.Outcome State Fault Refusal
  | [] => .next s
  | a :: rest =>
    match s.transact a with
    | .next t => t.transactAll rest
    | .fault f => .fault f
    | .refused r => .refused r

end Sys2Proof.Machine
end

