-- ==== Sys2Proof/Safety.lean ====
section
/-! DEFINITION. What a good state is, and how a run can end (R259). -/

namespace Sys2Proof.Machine

/-! ### The invariant -/

/-- The invariant of the machine: memory and framebuffer are in canonical form, inside their bounds
(R20, R34); every framebuffer cell holds `0x00` or `0xFF` (R34); `0 <= sp <= 16` (R29);
`halted = (halt_cause != 0)` (R32); the parameters are legal (D2). -/
abbrev State.Inv (s : State) : Prop :=
  Memory.wf s.config s.mem = true ∧ Framebuffer.wf s.config s.fb = true ∧
  Framebuffer.twoValued s.fb = true ∧ s.sp.toNat ≤ stackDepth ∧
  s.halted = (s.haltCause != .none) ∧ s.config.wf = true

/-! ### How a run ends -/

/-- The run has ended: every later cycle changes nothing (R121, R259). -/
def State.Ended (s : State) : Bool := s.halted

/-- The run ended in a way the document defines: `halt_cause` 1 or 2 (R259). -/
def State.EndedDefined (s : State) : Bool :=
  s.halted && (s.haltCause == .unknownInstruction || s.haltCause == .unimplementedInstruction)

/-- The run ended in a fault: `halt_cause` 3 to 6, never a successful end (R225, R259, U1 to U4). -/
def State.EndedInFault (s : State) : Bool := s.halted && s.haltCause.isFatal

/-! ### What an instruction leaves alone -/

/-- `t` differs from `s` in `pc` at most. -/
def State.OnlyPc (s t : State) : Prop := t = { s with pc := t.pc }

/-- `t` differs from `s` in general registers and `pc` at most. -/
def State.OnlyRegsPc (s t : State) : Prop := t = { s with regs := t.regs, pc := t.pc }

/-- `t` differs from `s` in `I` and `pc` at most. -/
def State.OnlyIndexPc (s t : State) : Prop := t = { s with index := t.index, pc := t.pc }

/-- `t` differs from `s` in memory and `pc` at most. -/
def State.OnlyMemPc (s t : State) : Prop := t = { s with mem := t.mem, pc := t.pc }

/-- `t` differs from `s` in the stack, `sp` and `pc` at most. -/
def State.OnlyStackPc (s t : State) : Prop := t = { s with stack := t.stack, sp := t.sp, pc := t.pc }

/-- `t` differs from `s` in the framebuffer, general registers and `pc` at most. -/
def State.OnlyFbRegsPc (s t : State) : Prop := t = { s with fb := t.fb, regs := t.regs, pc := t.pc }

/-! ### What instructions may write (the access matrix, R39) -/

/-- The five instructions that write `VF` as a side effect, whatever their `X` is (R24). -/
def setsFlag : Instr → Bool
  | .add _ _ | .subr _ _ | .shr _ _ | .shl _ _ | .drw _ _ _ => true
  | .ret | .jp _ | .call _ | .sei _ _ | .snei _ _ | .ser _ _ | .movi _ _ | .addi _ _ | .mov _ _
  | .or _ _ | .and _ _ | .xor _ _ | .sner _ _ | .iset _ | .skp _ | .sknp _ | .gdt _ | .wkey _
  | .sdt _ | .sst _ | .iadd _ | .ifont _ | .bcd _ | .stm _ | .ldm _ => false

/-- The columns `V[X],V[Y]` and `VF (implicit)` of the access matrix (R39): the registers an instruction
may write. -/
def mayWriteReg (i : Instr) (r : Reg) : Bool :=
  (setsFlag i && r == flagReg) ||
  match i with
  | .movi x _ | .addi x _ | .mov x _ | .or x _ | .and x _ | .xor x _ | .add x _ | .subr x _ | .shr x _
  | .shl x _ => r == x
  | .ldm x => r ≤ x
  | .ret | .jp _ | .call _ | .sei _ _ | .snei _ _ | .ser _ _ | .sner _ _ | .iset _ | .drw _ _ _
  | .skp _ | .sknp _ | .gdt _ | .wkey _ | .sdt _ | .sst _ | .iadd _ | .ifont _ | .bcd _ | .stm _ => false

/-- The seven stubs (R200). -/
def isStub : Instr → Bool
  | .skp _ | .sknp _ | .gdt _ | .wkey _ | .sdt _ | .sst _ | .bcd _ => true
  | .ret | .jp _ | .call _ | .sei _ _ | .snei _ _ | .ser _ _ | .movi _ _ | .addi _ _ | .mov _ _
  | .or _ _ | .and _ _ | .xor _ _ | .add _ _ | .subr _ _ | .shr _ _ | .shl _ _ | .sner _ _ | .iset _
  | .drw _ _ _ | .iadd _ | .ifont _ | .stm _ | .ldm _ => false

/-- The instruction the next cycle runs, when it runs one: the machine is not halted, the fetch is in
range, and the word at `pc` has an entry (R121 to R123). -/
def State.nextInstr (s : State) : Option Instr :=
  if s.halted = false ∧ s.pc.toNat ≤ 0xFFE then decodeWord (s.wordAt s.pc.toNat) else none

/-! ### Sprites -/

/-- The sprite of `n` rows at `I`, drawn with its top-left pixel at row `y0` and column `x0`, has a set
bit on the cell `(row, col)`; natural-number coordinates, never wrapped (R190 to R192). -/
def State.spriteSets (s : State) (x0 y0 n row col : Nat) : Bool :=
  y0 ≤ row && row < y0 + n && x0 ≤ col && col < x0 + spriteWidth &&
    spriteBit (s.load (s.dataAddr (row - y0))) (col - x0)

/-- Some cell of the grid is set by that sprite: a pixel that is not clipped changes (R192, R194). -/
def State.spriteSetsSome (s : State) (x0 y0 n : Nat) : Prop :=
  ∃ row < s.config.fbRows, ∃ col < s.config.fbCols, s.spriteSets x0 y0 n row col = true

/-! ### Parity of the program counter -/

/-- Every stack entry in use is even, and so is `pc` (R27). -/
def State.EvenPc (s : State) : Prop :=
  s.pc.toNat % 2 = 0 ∧ ∀ k : Fin 16, k.val < s.sp.toNat → s.stack[k].toNat % 2 = 0

end Sys2Proof.Machine
end

