-- ==== Sys2Proof/Certificates/Slice0/Obligations.lean ====
section
/-! DEFINITION. The statements about the machine, for the provers. Each docstring names the rule of the
spec it formalises. Where a rule carries a `[decision: …]` mark, the docstring names the decision, which
the spec calls its own choice. -/

section Statements

open Sys2Proof Sys2Proof.Machine

/-! ### Words and the opcode table -/

/-- R8: for `i` in 0 to 3, nibble `i` of `w` is `(w >> (4*i)) AND 0xF`, and the named fields are the
nibbles and bit ranges R8 and R91 give. -/
def Obligations.NibblesAndFieldsOfAWord : Prop :=
  ∀ w : Word,
    (∀ i < 4, (nibble w i).setWidth 16 = (w >>> (4 * i)) &&& 0xF) ∧
    fieldOP w = nibble w 3 ∧ (fieldX w).val = (nibble w 2).toNat ∧
    (fieldY w).val = (nibble w 1).toNat ∧ fieldN w = (nibble w 0).toNat ∧
    (fieldNN w).toNat = w.toNat % 256 ∧ (fieldNNN w).toNat = w.toNat % 4096

/-- R91, R104 and others: words written out bit by bit from the spec's encoding lines decode to the
instructions they stand for, one or more of each family. -/
def Obligations.WordsOfTheSpecDecode : Prop :=
  decodeWord 0b0000000011101110 = some .ret ∧
  decodeWord 0b0010001000001000 = some (.call 0x208) ∧
  decodeWord 0b0011001100101010 = some (.sei 3 0x2A) ∧
  decodeWord 0b0110010000110011 = some (.movi 4 0x33) ∧
  decodeWord 0b1000000100100101 = some (.subr 1 2) ∧
  decodeWord 0b1000111100001110 = some (.shl 15 0) ∧
  decodeWord 0b1010001100110011 = some (.iset 0x333) ∧
  decodeWord 0b1101000100100101 = some (.drw 1 2 5) ∧
  decodeWord 0b1110000110011110 = some (.skp 1) ∧
  decodeWord 0b1111000101010101 = some (.stm 1) ∧
  decodeWord 0b1000000100100111 = none

/-- R109 ("Decoding is the inverse"): every well-formed instruction is what its word decodes to, and
what its two bytes decode to in front of any bytes, with every operand at every value. -/
def Obligations.DecodeOfEncodeGivesTheInstruction : Prop :=
  ∀ (i : Instr) (rest : List Byte), i.wellFormed = true →
    decodeWord (encode i) = some i ∧ decode (encodeBytes i ++ rest) = .ok (i, rest)

/-- R109, R107 ("no bit of the word is lost"): a word that decodes gives a well-formed instruction whose
encoding is that word, the ignored `Y` field of the shifts included. -/
def Obligations.EncodeOfDecodeGivesTheWord : Prop :=
  ∀ (w : Word) (i : Instr), decodeWord w = some i → i.wellFormed = true ∧ encode i = w

/-- The set of unknown words as R105 lists it, in the numbers of a word's nibbles. -/
def Sys2Proof.UnknownWord (w : Word) : Prop :=
  let op := w.toNat / 4096
  let n := w.toNat % 16
  let nn := w.toNat % 256
  (op = 0x0 ∧ w ≠ 0x00EE) ∨ ((op = 0x5 ∨ op = 0x9) ∧ n ≠ 0) ∨
  (op = 0x8 ∧ n ∈ [0x7, 0x8, 0x9, 0xA, 0xB, 0xC, 0xD, 0xF]) ∨ op = 0xB ∨ op = 0xC ∨
  (op = 0xE ∧ nn ∉ [0x9E, 0xA1]) ∨
  (op = 0xF ∧ nn ∉ [0x07, 0x0A, 0x15, 0x18, 0x1E, 0x29, 0x33, 0x55, 0x65])

/-- R105, its list of the unknown words: a word has no table entry exactly when it is one of them. (The
count 30031, which R105 marks as derived, is not part of the statement.) -/
def Obligations.UnknownWordsAreThoseListed : Prop :=
  ∀ w : Word, decodeWord w = none ↔ UnknownWord w

/-- R97: every entry of a bucket is written with a mask that includes `0xF000` and a value in that
bucket, and no word matches two entries of a bucket, so the list order never changes which entry wins.
(R97 marks the second part as derived.) -/
def Obligations.TableEntriesAreDisjoint : Prop :=
  ∀ (key : BitVec 4) (entries : List Entry), bucket key = some entries →
    (∀ e ∈ entries, e.mask &&& 0xF000 = 0xF000 ∧ fieldOP e.value = key) ∧
    entries.Pairwise (fun e f => ∀ w, ¬ (e.Matches w = true ∧ f.Matches w = true))

/-! ### The cycle -/

/-- R122, R123, R124: a machine that is not halted, with `pc <= 0xFFE`, whose big-endian word at `pc`
has a table entry, runs that entry's execute behaviour, and the step is exactly that: the execute
behaviour gives the whole of the next state (R126, net form). -/
def Obligations.StepRunsTheDecodedInstruction : Prop :=
  ∀ (s : State) (w : Word) (i : Instr), s.halted = false → s.pc.toNat ≤ 0xFFE →
    w.toNat = 256 * (s.load s.pc.toNat).toNat + (s.load (s.pc.toNat + 1)).toNat →
    decodeWord w = some i → step s = exec i s

/-- R121: a cycle on a halted machine changes no state and returns `true`; and R234: so it stays, for
any number of cycles. (That `pc` is not advanced is decision D13.) -/
def Obligations.HaltedMachineStaysAsItIs : Prop :=
  ∀ s : State, s.halted = true →
    cycle s = .next (s, true) ∧ ∀ k, core.run k s = .next s

/-- R125: a fetched word that matches no table entry sets `halted` with cause 1 and advances `pc` by 2,
and nothing else changes. -/
def Obligations.UnknownWordHalts : Prop :=
  ∀ (s : State) (w : Word), s.halted = false → s.pc.toNat ≤ 0xFFE →
    w.toNat = 256 * (s.load s.pc.toNat).toNat + (s.load (s.pc.toNat + 1)).toNat →
    decodeWord w = none →
    step s = .next { s with halted := true, haltCause := .unknownInstruction, pc := s.pc + 2 }

/-- R231: a cycle on a machine that is not halted, with `pc > 0xFFE`, is fatal with cause 6 and changes
nothing else; `pc` keeps its out-of-range value. (Decision D14.) -/
def Obligations.FetchOutOfBoundsIsFatal : Prop :=
  ∀ s : State, s.halted = false → s.pc.toNat > 0xFFE →
    step s = .next { s with halted := true, haltCause := .fetchOutOfBounds }

/-- R127: the boolean a cycle returns is `halted` as it stands after the cycle, and the state is that of
the step. -/
def Obligations.CycleReturnsHalted : Prop :=
  ∀ s : State, s.Inv → ∃ t, step s = .next t ∧ cycle s = .next (t, t.halted)

/-- `pc` put back to where the execute behaviour found it. -/
def Sys2Proof.withPcOf (s : State) : Host.Outcome State Fault Refusal → Host.Outcome State Fault Refusal
  | .next t => .next { t with pc := s.pc }
  | .fault f => .fault f
  | .refused r => .refused r

/-- The document's literal execute behaviours (R126, R128): JP, CALL and RET pre-compensate their target
by 2, a taken skip adds 2, everything else leaves `pc` alone. -/
def Sys2Proof.literalExec (i : Instr) (s : State) : Host.Outcome State Fault Refusal :=
  match i with
  | .jp nnn => .next { s with pc := nnn - 2 }
  | .call nnn =>
    match exec (.call nnn) s with
    | .next t => .next (if t.halted then t else { t with pc := nnn - 2 })
    | o => o
  | .ret =>
    match exec .ret s with
    | .next t => .next (if t.halted then t else { t with pc := t.pc - 2 })
    | o => o
  | .sei x nn => .next (if s.reg x = nn then { s with pc := s.pc + 2 } else s)
  | .snei x nn => .next (if s.reg x ≠ nn then { s with pc := s.pc + 2 } else s)
  | .ser x y => .next (if s.reg x = s.reg y then { s with pc := s.pc + 2 } else s)
  | .sner x y => .next (if s.reg x ≠ s.reg y then { s with pc := s.pc + 2 } else s)
  | .movi _ _ | .addi _ _ | .mov _ _ | .or _ _ | .and _ _ | .xor _ _ | .add _ _ | .subr _ _
  | .shr _ _ | .shl _ _ | .iset _ | .drw _ _ _ | .skp _ | .sknp _ | .gdt _ | .wkey _ | .sdt _
  | .sst _ | .iadd _ | .ifont _ | .bcd _ | .stm _ | .ldm _ => withPcOf s (exec i s)

/-- The cycle in the document's literal form (R128): the behaviour runs, then `pc <- pc + 2`
"unconditionally", but for a fatal condition, which leaves `pc` (R126). -/
def Sys2Proof.literalCycle (s : State) : Host.Outcome State Fault Refusal :=
  let trailing (t : State) : State := if t.haltCause.isFatal then t else { t with pc := t.pc + 2 }
  if s.halted then .next s
  else if s.pc.toNat > 0xFFE then .next { s with halted := true, haltCause := .fetchOutOfBounds }
  else match decodeWord (s.wordAt s.pc.toNat) with
    | none => .next (trailing { s with halted := true, haltCause := .unknownInstruction })
    | some i =>
      match literalExec i s with
      | .next t => .next (trailing t)
      | .fault f => .fault f
      | .refused r => .refused r

/-- R126, R128: the document's literal form, with pre-compensated targets and a trailing `+ 2`, "gives
the same final state for every Machine and every word" as the net form the model steps by. (The modulo
`2^16` of the compensation is decision D12.) -/
def Obligations.LiteralCycleGivesTheSameState : Prop :=
  ∀ s : State, s.Inv → literalCycle s = step s

/-! ### Control flow -/

/-- R141: JP jumps to `NNN`; for every 12-bit `NNN`, 0 and 1 included; nothing but `pc` changes. -/
def Obligations.JpSetsPc : Prop :=
  ∀ (s : State) (nnn : BitVec 12),
    decodeWord (layoutA 0x1 nnn) = some (.jp (nnn.setWidth 16)) ∧
    ∃ t, exec (.jp (nnn.setWidth 16)) s = .next t ∧ t.pc.toNat = nnn.toNat ∧ s.OnlyPc t

/-- R142, R228: CALL with `sp < 16` writes `pc + 2` to `stack[sp]`, adds 1 to `sp` and jumps; every
other stack entry and all else is unchanged. With `sp = 16` it is fatal with cause 3 and changes
nothing else. (What is pushed is decision D11; the fatal stop is decision D14.) -/
def Obligations.CallPushesTheReturnAddress : Prop :=
  ∀ (s : State) (nnn : BitVec 12),
    decodeWord (layoutA 0x2 nnn) = some (.call (nnn.setWidth 16)) ∧
    (s.sp.toNat < 16 → ∃ t, exec (.call (nnn.setWidth 16)) s = .next t ∧
      (∀ j : Fin 16, t.stack[j] = if j.val = s.sp.toNat then s.pc + 2 else s.stack[j]) ∧
      t.sp.toNat = s.sp.toNat + 1 ∧ t.pc.toNat = nnn.toNat ∧ s.OnlyStackPc t) ∧
    (s.sp.toNat = 16 →
      exec (.call (nnn.setWidth 16)) s =
        .next { s with halted := true, haltCause := .stackOverflow })

/-- R140, R229: RET with `sp` in 1 to 16 subtracts 1 from `sp` and puts `stack[sp]` (the new `sp`) in
`pc`, leaving the stack's contents. With `sp = 0` it is fatal with cause 4 and changes nothing else.
(The fatal stop is decision D14.) -/
def Obligations.RetPopsTheReturnAddress : Prop :=
  decodeWord 0x00EE = some .ret ∧
  ∀ s : State,
    (∀ j : Fin 16, s.sp.toNat = j.val + 1 → ∃ t, exec .ret s = .next t ∧
      t.pc = s.stack[j] ∧ t.sp.toNat = j.val ∧ t.stack = s.stack ∧ s.OnlyStackPc t) ∧
    (s.sp.toNat = 0 → exec .ret s = .next { s with halted := true, haltCause := .stackUnderflow })

/-- The MODEL's choice, log entry 3: CALL and RET with `sp` above 16, a value R29 calls unreachable,
name a stack entry that does not exist, and the model stops by name. -/
def Obligations.StackPointerAboveSixteenFaults : Prop :=
  ∀ (s : State) (nnn : Word), s.sp.toNat > 16 →
    exec (.call nnn) s = .fault .noSuchStackEntry ∧ exec .ret s = .fault .noSuchStackEntry

/-- A skip: when `taken`, `pc` moves over the next instruction, else to it; nothing else changes. -/
def Sys2Proof.Skips (i : Instr) (s : State) (taken : Prop) : Prop :=
  ∃ t, exec i s = .next t ∧ (taken → t.pc = s.pc + 4) ∧ (¬ taken → t.pc = s.pc + 2) ∧ s.OnlyPc t

/-- R143, R144: SEI skips when `V[X] = NN`, SNEI when `V[X] != NN`. (The bit patterns are decision D5.) -/
def Obligations.ImmediateSkips : Prop :=
  ∀ (s : State) (x : Reg) (nn : Byte),
    decodeWord (layoutXI 0x3 x nn) = some (.sei x nn) ∧ Skips (.sei x nn) s (s.reg x = nn) ∧
    decodeWord (layoutXI 0x4 x nn) = some (.snei x nn) ∧ Skips (.snei x nn) s (s.reg x ≠ nn)

/-- R145, R146: SER skips when `V[X] = V[Y]`, SNER when `V[X] != V[Y]`; their words with another low
nibble are unknown. (The bit patterns are decision D5.) -/
def Obligations.RegisterSkips : Prop :=
  ∀ (s : State) (x y : Reg),
    decodeWord (layoutXYN 0x5 x y 0x0) = some (.ser x y) ∧ Skips (.ser x y) s (s.reg x = s.reg y) ∧
    decodeWord (layoutXYN 0x9 x y 0x0) = some (.sner x y) ∧ Skips (.sner x y) s (s.reg x ≠ s.reg y) ∧
    ∀ n : BitVec 4, n ≠ 0 →
      decodeWord (layoutXYN 0x5 x y n) = none ∧ decodeWord (layoutXYN 0x9 x y n) = none

/-- The stack discipline (R147, which the spec marks as derived): after a CALL at `A = pc` with
`sp < 16`, a RET in any state that has the same `sp` and the same `stack[s]` gives `pc = A + 2` and the
old `sp`. -/
def Obligations.CallThenRetResumesAfterTheCall : Prop :=
  ∀ (s : State) (nnn : Word) (j : Fin 16), s.sp.toNat = j.val →
    ∃ t, exec (.call nnn) s = .next t ∧
      ∀ u : State, u.sp = t.sp → u.stack[j] = t.stack[j] →
        ∃ v, exec .ret u = .next v ∧ v.pc = s.pc + 2 ∧ v.sp = s.sp

/-- The conditional invariant of R27 (which the spec marks as derived): while every JP and CALL that a
cycle runs has an even `NNN`, `pc` and the return addresses in use stay even. -/
def Obligations.PcStaysEven : Prop :=
  ∀ s t : State, s.Inv → s.EvenPc →
    (∀ nnn, s.nextInstr = some (.jp nnn) ∨ s.nextInstr = some (.call nnn) → nnn.toNat % 2 = 0) →
    step s = .next t → t.EvenPc

/-! ### Registers and ALU -/

/-- `i` completes, leaves the general registers as `v` says, adds 2 to `pc`, and changes nothing else:
memory, framebuffer, stack, `I`, timers, keys, `halted` and `halt_cause` are as before. -/
def Sys2Proof.WritesRegisters (i : Instr) (s : State) (v : Reg → Byte) : Prop :=
  ∃ t, exec i s = .next t ∧ (∀ r, t.reg r = v r) ∧ t.pc = s.pc + 2 ∧ s.OnlyRegsPc t

/-- R160: MOVI, `V[X] <- NN`; every other register, the flag included, is unchanged. -/
def Obligations.MoviSetsTheRegister : Prop :=
  ∀ (s : State) (x : Reg) (nn : Byte),
    decodeWord (layoutXI 0x6 x nn) = some (.movi x nn) ∧
    WritesRegisters (.movi x nn) s (fun r => if r = x then nn else s.reg r)

/-- R161: ADDI, `V[X] <- (V[X] + NN) mod 256`; no flag is touched. -/
def Obligations.AddiWrapsAndTouchesNoFlag : Prop :=
  ∀ (s : State) (x : Reg) (nn : Byte),
    decodeWord (layoutXI 0x7 x nn) = some (.addi x nn) ∧
    WritesRegisters (.addi x nn) s (fun r =>
      if r = x then BitVec.ofNat 8 (((s.reg x).toNat + nn.toNat) % 256) else s.reg r)

/-- R162 to R165: MOV, OR, AND and XOR write `V[X]` and nothing else; the flag is not written as a side
effect. (Function codes 0, 1 and 2 are decision D6; that no flag is written is decision D26.) -/
def Obligations.CopyAndLogicWriteOnlyTheDestination : Prop :=
  ∀ (s : State) (x y : Reg),
    (decodeWord (layoutXYN 0x8 x y 0x0) = some (.mov x y) ∧
      WritesRegisters (.mov x y) s (fun r => if r = x then s.reg y else s.reg r)) ∧
    (decodeWord (layoutXYN 0x8 x y 0x1) = some (.or x y) ∧
      WritesRegisters (.or x y) s (fun r => if r = x then s.reg x ||| s.reg y else s.reg r)) ∧
    (decodeWord (layoutXYN 0x8 x y 0x2) = some (.and x y) ∧
      WritesRegisters (.and x y) s (fun r => if r = x then s.reg x &&& s.reg y else s.reg r)) ∧
    (decodeWord (layoutXYN 0x8 x y 0x3) = some (.xor x y) ∧
      WritesRegisters (.xor x y) s (fun r => if r = x then s.reg x ^^^ s.reg y else s.reg r))

/-- R166: ADD, the sum modulo 256 to `V[X]` and then the carry to `VF`, so that with `X = 15` the carry
stays. (The function code is decision D6, the order of the writes decision D8.) -/
def Obligations.AddWritesSumThenCarry : Prop :=
  ∀ (s : State) (x y : Reg),
    decodeWord (layoutXYN 0x8 x y 0x4) = some (.add x y) ∧
    WritesRegisters (.add x y) s (fun r =>
      if r = 15 then (if (s.reg x).toNat + (s.reg y).toNat > 255 then 0x01 else 0x00)
      else if r = x then BitVec.ofNat 8 (((s.reg x).toNat + (s.reg y).toNat) % 256)
      else s.reg r)

/-- R167: SUBR, `V[Y] - V[X]` modulo 256 to `V[X]` and then the borrow to `VF`. (The function code is
decision D6, the flag's polarity decision D7, the order of the writes decision D8.) -/
def Obligations.SubrWritesDifferenceThenBorrow : Prop :=
  ∀ (s : State) (x y : Reg),
    decodeWord (layoutXYN 0x8 x y 0x5) = some (.subr x y) ∧
    WritesRegisters (.subr x y) s (fun r =>
      let a := (s.reg y).toNat
      let b := (s.reg x).toNat
      if r = 15 then (if a < b then 0x01 else 0x00)
      else if r = x then BitVec.ofNat 8 (if a ≥ b then a - b else a + 256 - b)
      else s.reg r)

/-- R168: SHR, bit 0 of `V[X]` to `VF` and then `V[X]`, read again, shifted right; with `X = 15` the
result is `0x00`; `Y` plays no part. (The function code is decision D6, the ignored `Y` decision D28.) -/
def Obligations.ShrWritesFlagThenShifts : Prop :=
  ∀ (s : State) (x y : Reg),
    decodeWord (layoutXYN 0x8 x y 0x6) = some (.shr x y) ∧
    WritesRegisters (.shr x y) s (fun r =>
      let old := (s.reg x).toNat
      if r = 15 then (if x = 15 then 0x00 else BitVec.ofNat 8 (old % 2))
      else if r = x then BitVec.ofNat 8 (old / 2)
      else s.reg r)

/-- R169: SHL, bit 7 of `V[X]` to `VF` and then `V[X]`, read again, shifted left; with `X = 15` the
result is `0x02` or `0x00`; `Y` plays no part. (The function code is decision D6, the ignored `Y`
decision D28.) -/
def Obligations.ShlWritesFlagThenShifts : Prop :=
  ∀ (s : State) (x y : Reg),
    decodeWord (layoutXYN 0x8 x y 0xE) = some (.shl x y) ∧
    WritesRegisters (.shl x y) s (fun r =>
      let old := (s.reg x).toNat
      if r = 15 then (if x = 15 then (if old ≥ 128 then 0x02 else 0x00)
        else (if old ≥ 128 then 0x01 else 0x00))
      else if r = x then BitVec.ofNat 8 (2 * old % 256)
      else s.reg r)

/-- R24: after one of the five instructions that write `VF` as a side effect has completed, `VF` holds
`0x00` or `0x01`, "with the single exception of SHL with `X = 15`", which leaves `0x00` or `0x02`. -/
def Obligations.FlagIsZeroOrOneAfterASideEffect : Prop :=
  ∀ (i : Instr) (s t : State), setsFlag i = true → exec i s = .next t → s.halted = false →
    t.halted = false →
    t.reg 15 = 0x00 ∨ (t.reg 15 = 0x01 ∧ ∀ y, i ≠ .shl 15 y) ∨ (t.reg 15 = 0x02 ∧ ∃ y, i = .shl 15 y)

/-! ### Index and memory -/

/-- R180, R181, R182: ISET, IADD (modulo 65536) and IFONT (five times the whole 8-bit value) give `I`
its new value; the flag and all else is unchanged. (Decisions D17 and D29.) -/
def Obligations.IndexInstructionsSetTheIndex : Prop :=
  (∀ (s : State) (nnn : BitVec 12),
    decodeWord (layoutA 0xA nnn) = some (.iset (nnn.setWidth 16)) ∧
    ∃ t, exec (.iset (nnn.setWidth 16)) s = .next t ∧ t.index.toNat = nnn.toNat ∧
      t.pc = s.pc + 2 ∧ s.OnlyIndexPc t) ∧
  (∀ (s : State) (x : Reg),
    decodeWord (layoutXI 0xF x 0x1E) = some (.iadd x) ∧
    ∃ t, exec (.iadd x) s = .next t ∧
      t.index.toNat = (s.index.toNat + (s.reg x).toNat) % 65536 ∧
      t.pc = s.pc + 2 ∧ s.OnlyIndexPc t) ∧
  (∀ (s : State) (x : Reg),
    decodeWord (layoutXI 0xF x 0x29) = some (.ifont x) ∧
    ∃ t, exec (.ifont x) s = .next t ∧ t.index.toNat = 5 * (s.reg x).toNat ∧
      t.pc = s.pc + 2 ∧ s.OnlyIndexPc t)

/-- R183: STM stores `V[0]` to `V[X]` at `I`; every byte outside them reads as before, `I` and all else
is unchanged; and when a byte of the transfer would lie above `0xFFF` nothing is stored: fatal, cause 5.
The address of `V[i]` is the one the meaning computes, `dataAddr i = I + i`. (Decisions D14 and D18.) -/
def Obligations.StmStoresTheRegisters : Prop :=
  ∀ (s : State) (x : Reg), s.Inv →
    decodeWord (layoutXI 0xF x 0x55) = some (.stm x) ∧
    (∀ i, s.dataAddr i = s.index.toNat + i) ∧
    (s.index.toNat + x.val ≤ 0xFFF → ∃ t, exec (.stm x) s = .next t ∧
      (∀ i ≤ x, t.load (s.dataAddr i.val) = s.reg i) ∧
      (∀ a, (∀ i ≤ x, a ≠ s.dataAddr i.val) → t.load a = s.load a) ∧
      t.pc = s.pc + 2 ∧ s.OnlyMemPc t) ∧
    (s.index.toNat + x.val > 0xFFF →
      exec (.stm x) s = .next { s with halted := true, haltCause := .memOutOfBounds })

/-- R184: LDM loads `V[0]` to `V[X]` from `I`; the registers above `X`, `I`, memory and all else are
unchanged; and when a byte of the transfer would lie above `0xFFF` no register changes: fatal, cause 5.
(Decisions D14 and D18.) -/
def Obligations.LdmLoadsTheRegisters : Prop :=
  ∀ (s : State) (x : Reg),
    decodeWord (layoutXI 0xF x 0x65) = some (.ldm x) ∧
    (s.index.toNat + x.val ≤ 0xFFF →
      WritesRegisters (.ldm x) s (fun r =>
        if r ≤ x then s.load (s.index.toNat + r.val) else s.reg r)) ∧
    (s.index.toNat + x.val > 0xFFF →
      exec (.ldm x) s = .next { s with halted := true, haltCause := .memOutOfBounds })

/-- R185 (which the spec marks as derived): an LDM with the same `I` and `X` after an STM, in any state
whose stored bytes are as the STM left them, restores `V[0]` to `V[X]`. -/
def Obligations.LdmAfterStmRestoresTheRegisters : Prop :=
  ∀ (s : State) (x : Reg), s.Inv → s.index.toNat + x.val ≤ 0xFFF →
    ∃ t, exec (.stm x) s = .next t ∧
      ∀ u : State, u.index = s.index →
        (∀ i ≤ x, u.load (s.dataAddr i.val) = t.load (s.dataAddr i.val)) →
        ∃ v, exec (.ldm x) u = .next v ∧ ∀ r ≤ x, v.reg r = s.reg r

/-- R72 (which the spec marks as derived): the very next cycle after an STM that stores to the two
bytes after it runs the instruction those two stored bytes stand for. -/
def Obligations.StoredCodeRunsInTheNextCycle : Prop :=
  ∀ (s : State) (x i j : Reg) (w : Word) (k : Instr), s.Inv → s.halted = false →
    s.index.toNat + x.val ≤ 0xFFF → i ≤ x → j ≤ x →
    s.dataAddr i.val = s.pc.toNat + 2 → s.dataAddr j.val = s.pc.toNat + 3 →
    w.toNat = 256 * (s.reg i).toNat + (s.reg j).toNat → decodeWord w = some k →
    ∃ t, exec (.stm x) s = .next t ∧ step t = exec k t

/-! ### The framebuffer -/

/-- R190 to R194: DRW with its `N` row bytes in range inverts exactly the cells of the grid under a set
sprite bit (bit `7 - c` of row byte `r` on column `V[X] + c` and row `V[Y] + r`, clipped and not
wrapped), sets `VF` to 1 when there is such a cell and to 0 otherwise, and changes no other register,
no memory and nothing else; out of range it is fatal, cause 5, and changes nothing else. (The bit order
is decision D4, the order of events decision D19, the fatal stop decision D14.) -/
def Obligations.DrwXorsTheSprite : Prop :=
  ∀ (s : State) (x y : Reg) (n : BitVec 4), s.Inv →
    let x0 := (s.reg x).toNat
    let y0 := (s.reg y).toNat
    decodeWord (layoutXYN 0xD x y n) = some (.drw x y n.toNat) ∧
    ((n.toNat = 0 ∨ s.index.toNat + (n.toNat - 1) ≤ 0xFFF) →
      ∃ t, exec (.drw x y n.toNat) s = .next t ∧
        (∀ row < s.config.fbRows, ∀ col < s.config.fbCols,
          t.cell row col =
            if y0 ≤ row ∧ row < y0 + n.toNat ∧ x0 ≤ col ∧ col < x0 + 8 ∧
                (s.load (s.index.toNat + (row - y0))).getLsbD (7 - (col - x0)) = true
            then s.cell row col ^^^ 0xFF else s.cell row col) ∧
        (s.spriteSetsSome x0 y0 n.toNat → t.reg 15 = 0x01) ∧
        (¬ s.spriteSetsSome x0 y0 n.toNat → t.reg 15 = 0x00) ∧
        (∀ r, r ≠ 15 → t.reg r = s.reg r) ∧
        t.pc = s.pc + 2 ∧ s.OnlyFbRegsPc t) ∧
    (n.toNat > 0 → s.index.toNat + (n.toNat - 1) > 0xFFF →
      exec (.drw x y n.toNat) s = .next { s with halted := true, haltCause := .memOutOfBounds })

/-- R196 (a) (which the spec marks as derived): drawing the same sprite twice at the same coordinates,
neither of them register 15, gives back the framebuffer, and the flag of the second draw is that of the
first. -/
def Obligations.DrawingTwiceRestoresTheFramebuffer : Prop :=
  ∀ (s : State) (x y : Reg) (n : Nat), s.Inv → x ≠ 15 → y ≠ 15 →
    (n = 0 ∨ s.index.toNat + (n - 1) ≤ 0xFFF) →
    ∃ t v, exec (.drw x y n) s = .next t ∧ exec (.drw x y n) t = .next v ∧
      v.fb = s.fb ∧ v.reg 15 = t.reg 15 ∧ v.mem = s.mem ∧ v.index = s.index

/-- R255, R34: `fb_read` of a coordinate in the grid gives `0x00` or `0xFF`, the cell's value; a
coordinate outside it is refused ("not a legal request"; the refusal by name is the model's, log entry
9). -/
def Obligations.FbReadGivesOffOrOn : Prop :=
  ∀ (s : State) (row col : Nat), s.Inv →
    (row < s.config.fbRows ∧ col < s.config.fbCols →
      ∃ v, fbRead s row col = .next v ∧ v = s.cell row col ∧ (v = 0x00 ∨ v = 0xFF)) ∧
    (¬ (row < s.config.fbRows ∧ col < s.config.fbCols) → fbRead s row col = .refused .noSuchPixel)

/-! ### Stubs and stopping -/

/-- `i` is the instruction of the word `w`, and its whole effect is the Halt sequence with cause 2. -/
def Sys2Proof.HaltsAsStub (w : Word) (i : Instr) (s : State) : Prop :=
  decodeWord w = some i ∧
  exec i s = .next { s with halted := true, haltCause := .unimplementedInstruction, pc := s.pc + 2 }

/-- R200 to R207: each of the seven stubs halts with cause 2 and advances `pc` by 2, for every `X` and in
every state; nothing else changes. (That these seven are stubs, and their patterns, is decision D9.) -/
def Obligations.StubsHalt : Prop :=
  ∀ (s : State) (x : Reg),
    HaltsAsStub (layoutXI 0xE x 0x9E) (.skp x) s ∧ HaltsAsStub (layoutXI 0xE x 0xA1) (.sknp x) s ∧
    HaltsAsStub (layoutXI 0xF x 0x07) (.gdt x) s ∧ HaltsAsStub (layoutXI 0xF x 0x0A) (.wkey x) s ∧
    HaltsAsStub (layoutXI 0xF x 0x15) (.sdt x) s ∧ HaltsAsStub (layoutXI 0xF x 0x18) (.sst x) s ∧
    HaltsAsStub (layoutXI 0xF x 0x33) (.bcd x) s

/-- R224, R225, R226: the cycle that sets `halted` changes nothing but `halted`, `halt_cause` and, for the
Halt causes 1 and 2 only, `pc`, which it advances by 2; it returns `true`; the Fatal causes are 3 to 6,
and the end state is then classed as a fault (log entry 2). -/
def Obligations.HaltingCycleChangesNothingElse : Prop :=
  ∀ s t : State, s.Inv → s.halted = false → step s = .next t → t.halted = true →
    cycle s = .next (t, true) ∧
    (((haltCauseOut t = 1 ∨ haltCauseOut t = 2) ∧ t.EndedDefined = true ∧
      t = { s with halted := true, haltCause := t.haltCause, pc := s.pc + 2 }) ∨
    ((haltCauseOut t = 3 ∨ haltCauseOut t = 4 ∨ haltCauseOut t = 5 ∨ haltCauseOut t = 6) ∧
      t.EndedInFault = true ∧ t = { s with halted := true, haltCause := t.haltCause }))

/-- R221, R227: which condition a cycle raises. Each code of `halt_cause` after a cycle says exactly
what the table of R221 says, and code 0 that the machine runs on. -/
def Obligations.HaltCauseSaysWhatHappened : Prop :=
  ∀ s t : State, s.Inv → s.halted = false → step s = .next t →
    (t.halted = false ↔ haltCauseOut t = 0) ∧
    (haltCauseOut t = 1 ↔ s.pc.toNat ≤ 0xFFE ∧ s.nextInstr = none) ∧
    (haltCauseOut t = 2 ↔ ∃ i, s.nextInstr = some i ∧ isStub i = true) ∧
    (haltCauseOut t = 3 ↔ (∃ nnn, s.nextInstr = some (.call nnn)) ∧ s.sp = 16) ∧
    (haltCauseOut t = 4 ↔ s.nextInstr = some .ret ∧ s.sp = 0) ∧
    (haltCauseOut t = 5 ↔
      (∃ x : Reg, (s.nextInstr = some (.stm x) ∨ s.nextInstr = some (.ldm x)) ∧
        s.index.toNat + x.val > 0xFFF) ∨
      (∃ x y n, s.nextInstr = some (.drw x y n) ∧ n > 0 ∧ s.index.toNat + (n - 1) > 0xFFF)) ∧
    (haltCauseOut t = 6 ↔ s.pc.toNat > 0xFFE)

/-! ### The whole machine -/

/-- R39, R24: the access matrix, what each instruction writes. A register changes only in an
instruction that may write it (its destination, `VF` for the five of R24, `V[0..X]` for LDM); `I` only in
ISET, IADD, IFONT; memory only in STM; the framebuffer only in DRW; the stack only in CALL, `sp` only in
CALL and RET; timers, keys and the parameters never. -/
def Obligations.InstructionsWriteOnlyTheirState : Prop :=
  ∀ (i : Instr) (s t : State), exec i s = .next t →
    (∀ r, t.reg r ≠ s.reg r → mayWriteReg i r = true) ∧
    (t.index ≠ s.index → (∃ nnn, i = .iset nnn) ∨ (∃ x, i = .iadd x) ∨ (∃ x, i = .ifont x)) ∧
    (t.mem ≠ s.mem → ∃ x, i = .stm x) ∧
    (t.fb ≠ s.fb → ∃ x y n, i = .drw x y n) ∧
    (t.stack ≠ s.stack → ∃ nnn, i = .call nnn) ∧
    (t.sp ≠ s.sp → i = .ret ∨ ∃ nnn, i = .call nnn) ∧
    t.delayTimer = s.delayTimer ∧ t.soundTimer = s.soundTimer ∧ t.keys = s.keys ∧
    t.config = s.config

/-- The invariant is kept, and the machine never stops without a next state: from every state that
meets the invariant a cycle answers a next state that meets it. It holds of memory and framebuffer in
canonical form (log entries 4 and 5), two-valued cells (R34), `0 <= sp <= 16` (R29) and
`halted = (halt_cause != 0)` (R32). -/
def Obligations.StepKeepsTheInvariant : Prop :=
  ∀ s : State, s.Inv → ∃ t, step s = .next t ∧ t.Inv

/-- The invariant holds right after reset, for every legal choice of the OPEN parameters. -/
def Obligations.ResetMeetsTheInvariant : Prop :=
  State.reset.Inv ∧ ∀ c : Config, c.wf = true → (State.resetWith c).Inv

/-- Every interleaving of host transactions keeps the invariant, and runs to its end when no image in it
is over-long (R251): resets, cycles, key writes and timer writes in any order (R74, R257). -/
def Obligations.TransactionsKeepTheInvariant : Prop :=
  ∀ (s : State) (as : List Transaction), s.Inv →
    (∀ image, Transaction.construct image ∈ as → image.length ≤ 3584) →
    ∃ t, s.transactAll as = .next t ∧ t.Inv ∧ t.config = s.config

/-- `s` with the host's inputs set: timers and keys (R257). -/
def Sys2Proof.withInputs (s : State) (dt st : Byte) (keys : Vector Bool 16) : State :=
  { s with delayTimer := dt, soundTimer := st, keys := keys }

/-- R257, R129: the host's writes to timers and keys never influence a cycle: a run of any number of
cycles from a state with other timers and keys goes through the same states but for these three, which
it leaves as they are. -/
def Obligations.TimersAndKeysNeverInfluenceARun : Prop :=
  ∀ (k : Nat) (s : State) (dt st : Byte) (keys : Vector Bool 16),
    core.run k (withInputs s dt st keys) =
      match core.run k s with
      | .next t => .next (withInputs t dt st keys)
      | .fault f => .fault f
      | .refused r => .refused r

/-! ### Reset and the host's ports -/

/-- R37, R21, R250: `construct` of an image of at most 3584 bytes gives every piece of state the value
of the table of R37: the font, zeros, the image byte for byte from `0x200`, zeros; all else zero or
false, and `pc = 0x0200`. -/
def Obligations.ConstructGivesTheResetValues : Prop :=
  ∀ (c : Config) (image : List Byte), image.length ≤ 3584 →
    ∃ t, construct c image = .next t ∧
      (∀ k : Fin 80, t.load k.val = c.font[k]) ∧
      (∀ a, 0x050 ≤ a → a < 0x200 → t.load a = 0x00) ∧
      (∀ (k : Nat) (h : k < image.length), t.load (0x200 + k) = image[k]) ∧
      (∀ a, 0x200 + image.length ≤ a → a ≤ 0xFFF → t.load a = 0x00) ∧
      (∀ r, t.reg r = 0x00) ∧ t.index = 0x0000 ∧ t.pc = 0x0200 ∧
      (∀ j : Fin 16, t.stack[j] = 0x0000) ∧ t.sp = 0 ∧
      t.delayTimer = 0x00 ∧ t.soundTimer = 0x00 ∧ (∀ j : Fin 16, t.keys[j] = false) ∧
      (∀ row < c.fbRows, ∀ col < c.fbCols, t.cell row col = 0x00) ∧
      t.halted = false ∧ haltCauseOut t = 0 ∧ t.config = c

/-- R251: an image of more than 3584 bytes is refused, and no Machine results. (Decision D22.) -/
def Obligations.OverlongImageIsRefused : Prop :=
  ∀ (c : Config) (image : List Byte), image.length > 3584 → construct c image = .refused .imageTooLong

/-- R257: `key_write` and `timer_write` set exactly the named key or timer. -/
def Obligations.HostWritesSetOneInput : Prop :=
  ∀ (s : State) (k : Fin 16) (b : Bool) (v : Byte),
    (∀ j : Fin 16, (keyWrite s k b).keys[j] = if j = k then b else s.keys[j]) ∧
    keyWrite s k b = { s with keys := (keyWrite s k b).keys } ∧
    timerWrite s .delay v = { s with delayTimer := v } ∧
    timerWrite s .sound v = { s with soundTimer := v }

/-- The MODEL's way to start a program, log entry 6: the very next step of `withFetchWord` runs the
instruction of the word placed, from every state whose memory is in canonical form. -/
def Obligations.PlacedWordRunsNext : Prop :=
  ∀ (s : State) (w : Nat) (i : Instr), Memory.wf s.config s.mem = true →
    decodeTableWord 16 w = some i →
    step (s.withFetchWord 16 w) = exec i (s.withFetchWord 16 w)

/-! ### The disassembler -/

/-- R211, R212: strings the spec gives as examples. (They are decision D23.) -/
def Obligations.DisassemblyOfTheExamples : Prop :=
  disasm 0x00EE = "RET" ∧ disasm 0x12A0 = "JP 0x2A0" ∧ disasm 0x332A = "SEI V3, 0x2A" ∧
  disasm 0x8123 = "XOR V1, V2" ∧ disasm 0x8F0E = "SHL VF, V0" ∧ disasm 0xA333 = "ISET 0x333" ∧
  disasm 0xD125 = "DRW V1, V2, 0x5" ∧ disasm 0xF233 = "BCD V2" ∧ disasm 0xC0FF = "UNKNOWN 0xC0FF"

/-- R107 ("text and word are in one-to-one correspondence") and R212 (the placeholder carries the
word): no two words have the same text. -/
def Obligations.TextDeterminesTheWord : Prop :=
  ∀ v w : Word, disasm v = disasm w → v = w

/-- R213: the listing of a program of `L <= 3584` bytes has `ceil(L / 2)` lines, line `k` the
disassembly of the big-endian word at `0x200 + 2k` as memory holds it now. (Odd lengths are decision
D24.) -/
def Obligations.ListingIsLinear : Prop :=
  ∀ (s : State) (len : Nat), len ≤ 3584 →
    ∃ lines, listing s len = .next lines ∧ 2 * lines.length = len + len % 2 ∧
      ∀ (k : Nat) (h : k < lines.length) (w : Word),
        w.toNat = 256 * (s.load (0x200 + 2 * k)).toNat + (s.load (0x200 + 2 * k + 1)).toNat →
        lines[k] = disasm w

end Statements
end

