-- ==== Sys2Proof/Laws/Cells.lean ====
section
/-! SUPPORT. The laws of a canonical store of cells: read after write, the canonical form is kept, and
two canonical stores that read alike are equal. -/

namespace Sys2Proof.Machine

variable {u : Nat → Byte} {bound lo : Nat}

@[simp] theorem Cells.wf_nil : Cells.wf u bound lo [] = true := rfl

@[simp] theorem Cells.read_nil (a : Nat) : Cells.read u [] a = u a := rfl

theorem Cells.wf_cons_iff {k : Nat} {v : Byte} {rest : Cells} :
    Cells.wf u bound lo ((k, v) :: rest) = true ↔
      lo ≤ k ∧ k < bound ∧ v ≠ u k ∧ Cells.wf u bound (k + 1) rest = true := by
  simp [Cells.wf, and_assoc]

theorem Cells.wf_mono {lo' : Nat} {m : Cells} (hle : lo' ≤ lo) (h : Cells.wf u bound lo m = true) :
    Cells.wf u bound lo' m = true := by
  cases m with
  | nil => rfl
  | cons p rest =>
    obtain ⟨hlo, hrest⟩ := Cells.wf_cons_iff.mp h
    exact Cells.wf_cons_iff.mpr ⟨hle.trans hlo, hrest⟩

/-- Below the least number a canonical store may list, every cell is unlisted. -/
theorem Cells.read_of_lt {m : Cells} {a : Nat} (h : Cells.wf u bound lo m = true) (ha : a < lo) :
    Cells.read u m a = u a := by
  cases m with
  | nil => rfl
  | cons p rest =>
    have := (Cells.wf_cons_iff.mp h).1
    simp [Cells.read, show a < p.1 by omega]

/-- From the bound on, every cell is unlisted. -/
theorem Cells.read_of_ge {m : Cells} {a : Nat} (h : Cells.wf u bound lo m = true) (ha : bound ≤ a) :
    Cells.read u m a = u a := by
  induction m generalizing lo with
  | nil => rfl
  | cons p rest ih =>
    obtain ⟨-, hk, -, hrest⟩ := Cells.wf_cons_iff.mp h
    simp [Cells.read, show ¬ a < p.1 by omega, show a ≠ p.1 by omega, ih hrest]

theorem Cells.read_cons {rest : Cells} {a : Nat} {v : Byte} (h : Cells.wf u bound (a + 1) rest = true)
    (b : Nat) : Cells.read u (Cells.cons u a v rest) b = if b = a then v else Cells.read u rest b := by
  have hlow : ∀ c < a + 1, Cells.read u rest c = u c := fun c hc => Cells.read_of_lt h hc
  unfold Cells.cons
  split
  · next hv => split
               · next hb => rw [hb, hlow a (by omega), hv]
               · rfl
  · rcases lt_trichotomy b a with hb | hb | hb
    · simp [Cells.read, hb, hb.ne, hlow b (by omega)]
    · simp [Cells.read, hb]
    · simp [Cells.read, hb.ne', show ¬ b < a by omega]

theorem Cells.wf_cons {rest : Cells} {a : Nat} {v : Byte} (h : Cells.wf u bound (a + 1) rest = true)
    (hlo : lo ≤ a) (ha : a < bound) : Cells.wf u bound lo (Cells.cons u a v rest) = true := by
  unfold Cells.cons
  split
  · exact Cells.wf_mono (by omega) h
  · next hv => exact Cells.wf_cons_iff.mpr ⟨hlo, ha, hv, h⟩

/-- Read after write: the written cell reads as the value written, every other cell as before. -/
theorem Cells.read_write {m : Cells} {a : Nat} {v : Byte} (h : Cells.wf u bound lo m = true) (b : Nat) :
    Cells.read u (Cells.write u m a v) b = if b = a then v else Cells.read u m b := by
  induction m generalizing lo with
  | nil => exact Cells.read_cons (bound := bound) Cells.wf_nil b
  | cons p rest ih =>
    obtain ⟨k, w⟩ := p
    obtain ⟨-, hk, hw, hrest⟩ := Cells.wf_cons_iff.mp h
    unfold Cells.write
    split
    · exact Cells.read_cons (Cells.wf_cons_iff.mpr ⟨by omega, hk, hw, hrest⟩) b
    · split
      · next hak =>
        subst hak
        rw [Cells.read_cons hrest]
        split
        · rfl
        · next hb =>
          by_cases hlt : b < a
          · simp [Cells.read, hlt, Cells.read_of_lt hrest (show b < a + 1 by omega)]
          · simp [Cells.read, hlt, hb]
      · simp only [Cells.read, ih hrest]
        split_ifs <;> first | rfl | omega

/-- A write inside the bounds keeps the canonical form. -/
theorem Cells.wf_write {m : Cells} {a : Nat} {v : Byte} (h : Cells.wf u bound lo m = true)
    (hlo : lo ≤ a) (ha : a < bound) : Cells.wf u bound lo (Cells.write u m a v) = true := by
  induction m generalizing lo with
  | nil => exact Cells.wf_cons Cells.wf_nil hlo ha
  | cons p rest ih =>
    obtain ⟨k, w⟩ := p
    obtain ⟨hlok, hk, hw, hrest⟩ := Cells.wf_cons_iff.mp h
    unfold Cells.write
    split
    · exact Cells.wf_cons (Cells.wf_cons_iff.mpr ⟨by omega, hk, hw, hrest⟩) hlo ha
    · split
      · next hak => subst hak; exact Cells.wf_cons hrest hlo ha
      · exact Cells.wf_cons_iff.mpr ⟨hlok, hk, hw, ih hrest (by omega)⟩

/-- Equal memories are equal data: canonical stores that read alike are the same list. -/
theorem Cells.ext_of_read {m m' : Cells} {lo' : Nat} (h : Cells.wf u bound lo m = true)
    (h' : Cells.wf u bound lo' m' = true) (heq : ∀ a, Cells.read u m a = Cells.read u m' a) : m = m' := by
  induction m generalizing m' lo lo' with
  | nil =>
    cases m' with
    | nil => rfl
    | cons q rest' =>
      obtain ⟨-, -, hq, -⟩ := Cells.wf_cons_iff.mp h'
      exact absurd (heq q.1) (by simpa [Cells.read] using hq.symm)
  | cons p rest ih =>
    obtain ⟨k, v⟩ := p
    obtain ⟨-, -, hv, hrest⟩ := Cells.wf_cons_iff.mp h
    cases m' with
    | nil => exact absurd (heq k) (by simpa [Cells.read] using hv)
    | cons q rest' =>
      obtain ⟨k', v'⟩ := q
      obtain ⟨-, -, hv', hrest'⟩ := Cells.wf_cons_iff.mp h'
      have hk : k = k' := by
        rcases lt_trichotomy k k' with hlt | heqk | hgt
        · exact absurd (heq k) (by simpa [Cells.read, hlt] using hv)
        · exact heqk
        · exact absurd (heq k') (by simpa [Cells.read, hgt] using hv'.symm)
      subst hk
      have hvv : v = v' := by simpa [Cells.read] using heq k
      subst hvv
      have htail : ∀ a, Cells.read u rest a = Cells.read u rest' a := by
        intro a
        by_cases ha : a < k + 1
        · rw [Cells.read_of_lt hrest ha, Cells.read_of_lt hrest' ha]
        · simpa [Cells.read, show ¬ a < k by omega, show a ≠ k by omega] using heq a
      rw [ih hrest hrest' htail]

/-- Writing an on or off value keeps every listed cell of the framebuffer on. -/
theorem Framebuffer.twoValued_write {m : Cells} {a : Nat} {v : Byte} (h : Framebuffer.twoValued m = true)
    (hv : v = pixelOff ∨ v = pixelOn) :
    Framebuffer.twoValued (Cells.write (fun _ => pixelOff) m a v) = true := by
  have hcons : ∀ {rest : Cells}, Framebuffer.twoValued rest = true →
      Framebuffer.twoValued (Cells.cons (fun _ => pixelOff) a v rest) = true := by
    intro rest hr
    unfold Cells.cons
    split
    · exact hr
    · rcases hv with rfl | rfl
      · contradiction
      · simpa [Framebuffer.twoValued] using hr
  induction m with
  | nil => exact hcons rfl
  | cons p rest ih =>
    obtain ⟨k, w⟩ := p
    have hparts : w = pixelOn ∧ Framebuffer.twoValued rest = true := by
      simpa [Framebuffer.twoValued] using h
    unfold Cells.write
    split
    · exact hcons h
    · split
      · exact hcons hparts.2
      · have := ih hparts.2
        simp only [Framebuffer.twoValued, List.all_cons, Bool.and_eq_true] at this ⊢
        exact ⟨by simp [hparts.1], this⟩

/-- A cell of a two-valued framebuffer reads as off or on. -/
theorem Framebuffer.read_twoValued {m : Cells} (h : Framebuffer.twoValued m = true) (a : Nat) :
    Cells.read (fun _ => pixelOff) m a = pixelOff ∨ Cells.read (fun _ => pixelOff) m a = pixelOn := by
  induction m with
  | nil => exact .inl rfl
  | cons p rest ih =>
    have hparts : p.2 = pixelOn ∧ Framebuffer.twoValued rest = true := by
      simpa [Framebuffer.twoValued] using h
    simp only [Cells.read]
    split_ifs
    · exact .inl rfl
    · exact .inr hparts.1
    · exact ih hparts.2

end Sys2Proof.Machine
end

