-- ==== Sys2Proof/Laws/Decode.lean ====
section
/-! SUPPORT. The fields and the masked bits of a laid-out word, and the masked bits of an encoded one. -/

namespace Sys2Proof

variable (op : BitVec 4) (x y : Reg) (n : BitVec 4) (nn : Byte) (nnn : BitVec 12)

/-! ### Bits and fields of the layouts -/

theorem getLsbD_layoutA (i : Nat) :
    (layoutA op nnn).getLsbD i = if i < 12 then nnn.getLsbD i else op.getLsbD (i - 12) :=
  BitVec.getLsbD_append

theorem getLsbD_layoutXI (i : Nat) :
    (layoutXI op x nn).getLsbD i =
      if i < 8 then nn.getLsbD i
      else if i - 8 < 4 then (BitVec.ofFin x : BitVec 4).getLsbD (i - 8) else op.getLsbD (i - 8 - 4) :=
  BitVec.getLsbD_append.trans (by rw [BitVec.getLsbD_append])

theorem getLsbD_layoutXYN (i : Nat) :
    (layoutXYN op x y n).getLsbD i =
      if i < 4 then n.getLsbD i
      else if i - 4 < 4 then (BitVec.ofFin y : BitVec 4).getLsbD (i - 4)
      else if i - 4 - 4 < 4 then (BitVec.ofFin x : BitVec 4).getLsbD (i - 4 - 4)
      else op.getLsbD (i - 4 - 4 - 4) :=
  BitVec.getLsbD_append.trans (by rw [BitVec.getLsbD_append, BitVec.getLsbD_append])

theorem nibble_eq_of_getLsbD {v w : BitVec 4} (h0 : v.getLsbD 0 = w.getLsbD 0)
    (h1 : v.getLsbD 1 = w.getLsbD 1) (h2 : v.getLsbD 2 = w.getLsbD 2)
    (h3 : v.getLsbD 3 = w.getLsbD 3) : v = w := by
  apply BitVec.eq_of_getLsbD_eq
  intro i hi
  interval_cases i <;> assumption

@[simp] theorem fieldOP_layoutA : fieldOP (layoutA op nnn) = op := by
  apply nibble_eq_of_getLsbD <;>
    simp [fieldOP, nibble, getLsbD_layoutA, BitVec.getLsbD_extractLsb', -BitVec.getLsbD_eq_getElem]

@[simp] theorem fieldNNN_layoutA : fieldNNN (layoutA op nnn) = nnn.setWidth 16 := by
  unfold fieldNNN layoutA
  congr 1
  exact BitVec.extractLsb'_append_eq_right

@[simp] theorem fieldOP_layoutXI : fieldOP (layoutXI op x nn) = op := by
  apply nibble_eq_of_getLsbD <;>
    simp [fieldOP, nibble, getLsbD_layoutXI, BitVec.getLsbD_extractLsb', -BitVec.getLsbD_eq_getElem]

@[simp] theorem fieldX_layoutXI : fieldX (layoutXI op x nn) = x := by
  have : nibble (layoutXI op x nn) 2 = BitVec.ofFin x := by
    apply nibble_eq_of_getLsbD <;> simp [nibble, getLsbD_layoutXI, BitVec.getLsbD_extractLsb', -BitVec.getLsbD_eq_getElem]
  simp [fieldX, this]

@[simp] theorem fieldNN_layoutXI : fieldNN (layoutXI op x nn) = nn := by
  exact BitVec.extractLsb'_append_eq_right

@[simp] theorem fieldOP_layoutXYN : fieldOP (layoutXYN op x y n) = op := by
  apply nibble_eq_of_getLsbD <;>
    simp [fieldOP, nibble, getLsbD_layoutXYN, BitVec.getLsbD_extractLsb', -BitVec.getLsbD_eq_getElem]

@[simp] theorem fieldX_layoutXYN : fieldX (layoutXYN op x y n) = x := by
  have : nibble (layoutXYN op x y n) 2 = BitVec.ofFin x := by
    apply nibble_eq_of_getLsbD <;> simp [nibble, getLsbD_layoutXYN, BitVec.getLsbD_extractLsb', -BitVec.getLsbD_eq_getElem]
  simp [fieldX, this]

@[simp] theorem fieldY_layoutXYN : fieldY (layoutXYN op x y n) = y := by
  have : nibble (layoutXYN op x y n) 1 = BitVec.ofFin y := by
    apply nibble_eq_of_getLsbD <;> simp [nibble, getLsbD_layoutXYN, BitVec.getLsbD_extractLsb', -BitVec.getLsbD_eq_getElem]
  simp [fieldY, this]

@[simp] theorem fieldN_layoutXYN : fieldN (layoutXYN op x y n) = n.toNat := by
  have : nibble (layoutXYN op x y n) 0 = n := by
    apply nibble_eq_of_getLsbD <;> simp [nibble, getLsbD_layoutXYN, BitVec.getLsbD_extractLsb', -BitVec.getLsbD_eq_getElem]
  simp [fieldN, this]

/-! ### Masked bits of the layouts -/

theorem word_eq_of_getLsbD {v w : Word} (h : ∀ i < 16, v.getLsbD i = w.getLsbD i) : v = w :=
  BitVec.eq_of_getLsbD_eq h

theorem layoutA_and_F000 : layoutA op nnn &&& 0xF000 = layoutA op 0 := by
  apply word_eq_of_getLsbD
  intro i hi
  interval_cases i <;> simp [getLsbD_layoutA, -BitVec.getLsbD_eq_getElem]

theorem layoutXI_and_F000 : layoutXI op x nn &&& 0xF000 = layoutA op 0 := by
  apply word_eq_of_getLsbD
  intro i hi
  interval_cases i <;> simp [getLsbD_layoutA, getLsbD_layoutXI, -BitVec.getLsbD_eq_getElem]

theorem layoutXI_and_F0FF : layoutXI op x nn &&& 0xF0FF = layoutXI op 0 nn := by
  apply word_eq_of_getLsbD
  intro i hi
  interval_cases i <;> simp [getLsbD_layoutXI, -BitVec.getLsbD_eq_getElem]

theorem layoutXYN_and_F000 : layoutXYN op x y n &&& 0xF000 = layoutA op 0 := by
  apply word_eq_of_getLsbD
  intro i hi
  interval_cases i <;> simp [getLsbD_layoutA, getLsbD_layoutXYN, -BitVec.getLsbD_eq_getElem]

theorem layoutXYN_and_F00F : layoutXYN op x y n &&& 0xF00F = layoutXYN op 0 0 n := by
  apply word_eq_of_getLsbD
  intro i hi
  interval_cases i <;> simp [getLsbD_layoutXYN, -BitVec.getLsbD_eq_getElem]

/-! ### The lookup of a laid-out word

Each lemma reduces the lookup to comparing the table's values with the word's fixed bits, a closed
computation for any bucket whose entries have one mask. -/

variable {op x y n nn nnn}

theorem decodeWord_eq {w masked mask : Word} {es : List Entry} {e : Entry} (hop : fieldOP w = op)
    (hb : bucket op = some es) (hmask : ∀ e ∈ es, e.mask = mask) (hw : w &&& mask = masked)
    (hfind : es.find? (fun e => masked == e.value) = some e) : decodeWord w = some (e.build w) := by
  have hsame : es.find? (fun e => e.Matches w) = es.find? (fun e => masked == e.value) := by
    refine List.find?_congr fun e he => ?_
    rw [Entry.Matches, hmask e he, hw]
  simp [decodeWord, lookup, hop, hb, hsame, hfind]

theorem decodeWord_layoutA {es : List Entry} {e : Entry} (hb : bucket op = some es)
    (hmask : ∀ e ∈ es, e.mask = 0xF000)
    (hfind : es.find? (fun e => layoutA op 0 == e.value) = some e) :
    decodeWord (layoutA op nnn) = some (e.build (layoutA op nnn)) :=
  decodeWord_eq (fieldOP_layoutA op nnn) hb hmask (layoutA_and_F000 op nnn) hfind

theorem decodeWord_layoutXI {es : List Entry} {e : Entry} (hb : bucket op = some es)
    (hmask : ∀ e ∈ es, e.mask = 0xF000)
    (hfind : es.find? (fun e => layoutA op 0 == e.value) = some e) :
    decodeWord (layoutXI op x nn) = some (e.build (layoutXI op x nn)) :=
  decodeWord_eq (fieldOP_layoutXI op x nn) hb hmask (layoutXI_and_F000 op x nn) hfind

theorem decodeWord_layoutXF {es : List Entry} {e : Entry} (hb : bucket op = some es)
    (hmask : ∀ e ∈ es, e.mask = 0xF0FF)
    (hfind : es.find? (fun e => layoutXI op 0 nn == e.value) = some e) :
    decodeWord (layoutXI op x nn) = some (e.build (layoutXI op x nn)) :=
  decodeWord_eq (fieldOP_layoutXI op x nn) hb hmask (layoutXI_and_F0FF op x nn) hfind

theorem decodeWord_layoutXY {es : List Entry} {e : Entry} (hb : bucket op = some es)
    (hmask : ∀ e ∈ es, e.mask = 0xF00F)
    (hfind : es.find? (fun e => layoutXYN op 0 0 n == e.value) = some e) :
    decodeWord (layoutXYN op x y n) = some (e.build (layoutXYN op x y n)) :=
  decodeWord_eq (fieldOP_layoutXYN op x y n) hb hmask (layoutXYN_and_F00F op x y n) hfind

theorem decodeWord_layoutXYN {es : List Entry} {e : Entry} (hb : bucket op = some es)
    (hmask : ∀ e ∈ es, e.mask = 0xF000)
    (hfind : es.find? (fun e => layoutA op 0 == e.value) = some e) :
    decodeWord (layoutXYN op x y n) = some (e.build (layoutXYN op x y n)) :=
  decodeWord_eq (fieldOP_layoutXYN op x y n) hb hmask (layoutXYN_and_F000 op x y n) hfind

variable (op x y n nn nnn)

/-! ### Encoded words are laid-out words -/

theorem getLsbD_placeX (i : Nat) :
    (placeX x).getLsbD i =
      (decide (i < 16) && (!decide (i < 8) && (BitVec.ofFin x : BitVec 4).getLsbD (i - 8))) := by
  rw [placeX, BitVec.getLsbD_shiftLeft]
  by_cases hi : i < 16
  · simp [hi, BitVec.getLsbD, Nat.mod_eq_of_lt (show x.val < 65536 by omega)]
  · simp [hi]

theorem getLsbD_placeY (i : Nat) :
    (placeY y).getLsbD i =
      (decide (i < 16) && (!decide (i < 4) && (BitVec.ofFin y : BitVec 4).getLsbD (i - 4))) := by
  rw [placeY, BitVec.getLsbD_shiftLeft]
  by_cases hi : i < 16
  · simp [hi, BitVec.getLsbD, Nat.mod_eq_of_lt (show y.val < 65536 by omega)]
  · simp [hi]

theorem or_setWidth_layoutA : layoutA op 0 ||| nnn.setWidth 16 = layoutA op nnn := by
  apply word_eq_of_getLsbD
  intro i hi
  interval_cases i <;> simp [getLsbD_layoutA, -BitVec.getLsbD_eq_getElem]

theorem or_placeX_setWidth : layoutA op 0 ||| placeX x ||| nn.setWidth 16 = layoutXI op x nn := by
  apply word_eq_of_getLsbD
  intro i hi
  interval_cases i <;>
    simp [getLsbD_layoutA, getLsbD_layoutXI, getLsbD_placeX, -BitVec.getLsbD_eq_getElem]

theorem or_placeX : layoutXI op 0 nn ||| placeX x = layoutXI op x nn := by
  apply word_eq_of_getLsbD
  intro i hi
  interval_cases i <;> simp [getLsbD_layoutXI, getLsbD_placeX, -BitVec.getLsbD_eq_getElem]

theorem or_placeX_placeY : layoutXYN op 0 0 n ||| placeX x ||| placeY y = layoutXYN op x y n := by
  apply word_eq_of_getLsbD
  intro i hi
  interval_cases i <;>
    simp [getLsbD_layoutXYN, getLsbD_placeX, getLsbD_placeY, -BitVec.getLsbD_eq_getElem]

theorem or_placeX_placeY_ofNat :
    layoutA op 0 ||| placeX x ||| placeY y ||| n.setWidth 16 = layoutXYN op x y n := by
  apply word_eq_of_getLsbD
  intro i hi
  interval_cases i <;>
    simp [getLsbD_layoutA, getLsbD_layoutXYN, getLsbD_placeX, getLsbD_placeY, -BitVec.getLsbD_eq_getElem]

/-- A well-formed address operand is a 12-bit immediate, zero-extended (R93). -/
theorem exists_nnn_of_le {v : Word} (h : v.toNat ≤ 0xFFF) : ∃ k : BitVec 12, v = k.setWidth 16 := by
  refine ⟨v.setWidth 12, BitVec.eq_of_toNat_eq ?_⟩
  simp only [BitVec.toNat_setWidth]
  omega

/-- A well-formed row count is a 4-bit immediate (R93). -/
theorem exists_n_of_le {k : Nat} (h : k ≤ 15) : ∃ v : BitVec 4, k = v.toNat :=
  ⟨BitVec.ofNat 4 k, by simp only [BitVec.toNat_ofNat]; omega⟩

end Sys2Proof
end

