-- ==== Sys2Proof/Laws/State.lean ====
section
/-! SUPPORT. What each named update of State leaves and sets, field by field, so that no later proof
unfolds a record update. -/

namespace Sys2Proof.Machine

variable (s : State)

@[simp] theorem State.setReg_config (r : Reg) (v : Byte) : (s.setReg r v).config = s.config := rfl
@[simp] theorem State.setReg_mem (r : Reg) (v : Byte) : (s.setReg r v).mem = s.mem := rfl
@[simp] theorem State.setReg_regs (r : Reg) (v : Byte) :
    (s.setReg r v).regs =
      s.regs.set r v := rfl
@[simp] theorem State.setReg_index (r : Reg) (v : Byte) : (s.setReg r v).index = s.index := rfl
@[simp] theorem State.setReg_pc (r : Reg) (v : Byte) : (s.setReg r v).pc = s.pc := rfl
@[simp] theorem State.setReg_stack (r : Reg) (v : Byte) : (s.setReg r v).stack = s.stack := rfl
@[simp] theorem State.setReg_sp (r : Reg) (v : Byte) : (s.setReg r v).sp = s.sp := rfl
@[simp] theorem State.setReg_delayTimer (r : Reg) (v : Byte) :
    (s.setReg r v).delayTimer =
      s.delayTimer := rfl
@[simp] theorem State.setReg_soundTimer (r : Reg) (v : Byte) :
    (s.setReg r v).soundTimer =
      s.soundTimer := rfl
@[simp] theorem State.setReg_keys (r : Reg) (v : Byte) : (s.setReg r v).keys = s.keys := rfl
@[simp] theorem State.setReg_fb (r : Reg) (v : Byte) : (s.setReg r v).fb = s.fb := rfl
@[simp] theorem State.setReg_halted (r : Reg) (v : Byte) : (s.setReg r v).halted = s.halted := rfl
@[simp] theorem State.setReg_haltCause (r : Reg) (v : Byte) :
    (s.setReg r v).haltCause =
      s.haltCause := rfl

@[simp] theorem State.store_config (a : Nat) (v : Byte) : (s.store a v).config = s.config := rfl
@[simp] theorem State.store_mem (a : Nat) (v : Byte) :
    (s.store a v).mem =
      Cells.write (initialByte s.config) s.mem a v := rfl
@[simp] theorem State.store_regs (a : Nat) (v : Byte) : (s.store a v).regs = s.regs := rfl
@[simp] theorem State.store_index (a : Nat) (v : Byte) : (s.store a v).index = s.index := rfl
@[simp] theorem State.store_pc (a : Nat) (v : Byte) : (s.store a v).pc = s.pc := rfl
@[simp] theorem State.store_stack (a : Nat) (v : Byte) : (s.store a v).stack = s.stack := rfl
@[simp] theorem State.store_sp (a : Nat) (v : Byte) : (s.store a v).sp = s.sp := rfl
@[simp] theorem State.store_delayTimer (a : Nat) (v : Byte) :
    (s.store a v).delayTimer =
      s.delayTimer := rfl
@[simp] theorem State.store_soundTimer (a : Nat) (v : Byte) :
    (s.store a v).soundTimer =
      s.soundTimer := rfl
@[simp] theorem State.store_keys (a : Nat) (v : Byte) : (s.store a v).keys = s.keys := rfl
@[simp] theorem State.store_fb (a : Nat) (v : Byte) : (s.store a v).fb = s.fb := rfl
@[simp] theorem State.store_halted (a : Nat) (v : Byte) : (s.store a v).halted = s.halted := rfl
@[simp] theorem State.store_haltCause (a : Nat) (v : Byte) :
    (s.store a v).haltCause =
      s.haltCause := rfl

@[simp] theorem State.toggleCell_config (row col : Nat) :
    (s.toggleCell row col).config =
      s.config := rfl
@[simp] theorem State.toggleCell_mem (row col : Nat) : (s.toggleCell row col).mem = s.mem := rfl
@[simp] theorem State.toggleCell_regs (row col : Nat) : (s.toggleCell row col).regs = s.regs := rfl
@[simp] theorem State.toggleCell_index (row col : Nat) :
    (s.toggleCell row col).index =
      s.index := rfl
@[simp] theorem State.toggleCell_pc (row col : Nat) : (s.toggleCell row col).pc = s.pc := rfl
@[simp] theorem State.toggleCell_stack (row col : Nat) :
    (s.toggleCell row col).stack =
      s.stack := rfl
@[simp] theorem State.toggleCell_sp (row col : Nat) : (s.toggleCell row col).sp = s.sp := rfl
@[simp] theorem State.toggleCell_delayTimer (row col : Nat) :
    (s.toggleCell row col).delayTimer =
      s.delayTimer := rfl
@[simp] theorem State.toggleCell_soundTimer (row col : Nat) :
    (s.toggleCell row col).soundTimer =
      s.soundTimer := rfl
@[simp] theorem State.toggleCell_keys (row col : Nat) : (s.toggleCell row col).keys = s.keys := rfl
@[simp] theorem State.toggleCell_fb (row col : Nat) :
    (s.toggleCell row col).fb =
      Cells.write (fun _ => pixelOff) s.fb (cellNumber s.config row col) (s.cell row col ^^^ pixelOn) := rfl
@[simp] theorem State.toggleCell_halted (row col : Nat) :
    (s.toggleCell row col).halted =
      s.halted := rfl
@[simp] theorem State.toggleCell_haltCause (row col : Nat) :
    (s.toggleCell row col).haltCause =
      s.haltCause := rfl

@[simp] theorem State.advance_config : (s.advance).config = s.config := rfl
@[simp] theorem State.advance_mem : (s.advance).mem = s.mem := rfl
@[simp] theorem State.advance_regs : (s.advance).regs = s.regs := rfl
@[simp] theorem State.advance_index : (s.advance).index = s.index := rfl
@[simp] theorem State.advance_pc : (s.advance).pc = s.pc + 2 := rfl
@[simp] theorem State.advance_stack : (s.advance).stack = s.stack := rfl
@[simp] theorem State.advance_sp : (s.advance).sp = s.sp := rfl
@[simp] theorem State.advance_delayTimer : (s.advance).delayTimer = s.delayTimer := rfl
@[simp] theorem State.advance_soundTimer : (s.advance).soundTimer = s.soundTimer := rfl
@[simp] theorem State.advance_keys : (s.advance).keys = s.keys := rfl
@[simp] theorem State.advance_fb : (s.advance).fb = s.fb := rfl
@[simp] theorem State.advance_halted : (s.advance).halted = s.halted := rfl
@[simp] theorem State.advance_haltCause : (s.advance).haltCause = s.haltCause := rfl

@[simp] theorem State.skipWhen_config (b : Bool) : (s.skipWhen b).config = s.config := rfl
@[simp] theorem State.skipWhen_mem (b : Bool) : (s.skipWhen b).mem = s.mem := rfl
@[simp] theorem State.skipWhen_regs (b : Bool) : (s.skipWhen b).regs = s.regs := rfl
@[simp] theorem State.skipWhen_index (b : Bool) : (s.skipWhen b).index = s.index := rfl
@[simp] theorem State.skipWhen_pc (b : Bool) :
    (s.skipWhen b).pc =
      if b then s.pc + 4 else s.pc + 2 := rfl
@[simp] theorem State.skipWhen_stack (b : Bool) : (s.skipWhen b).stack = s.stack := rfl
@[simp] theorem State.skipWhen_sp (b : Bool) : (s.skipWhen b).sp = s.sp := rfl
@[simp] theorem State.skipWhen_delayTimer (b : Bool) :
    (s.skipWhen b).delayTimer =
      s.delayTimer := rfl
@[simp] theorem State.skipWhen_soundTimer (b : Bool) :
    (s.skipWhen b).soundTimer =
      s.soundTimer := rfl
@[simp] theorem State.skipWhen_keys (b : Bool) : (s.skipWhen b).keys = s.keys := rfl
@[simp] theorem State.skipWhen_fb (b : Bool) : (s.skipWhen b).fb = s.fb := rfl
@[simp] theorem State.skipWhen_halted (b : Bool) : (s.skipWhen b).halted = s.halted := rfl
@[simp] theorem State.skipWhen_haltCause (b : Bool) : (s.skipWhen b).haltCause = s.haltCause := rfl

@[simp] theorem State.raise_config (c : HaltCause) : (s.raise c).config = s.config := rfl
@[simp] theorem State.raise_mem (c : HaltCause) : (s.raise c).mem = s.mem := rfl
@[simp] theorem State.raise_regs (c : HaltCause) : (s.raise c).regs = s.regs := rfl
@[simp] theorem State.raise_index (c : HaltCause) : (s.raise c).index = s.index := rfl
@[simp] theorem State.raise_pc (c : HaltCause) :
    (s.raise c).pc =
      if c.isFatal then s.pc else s.pc + 2 := rfl
@[simp] theorem State.raise_stack (c : HaltCause) : (s.raise c).stack = s.stack := rfl
@[simp] theorem State.raise_sp (c : HaltCause) : (s.raise c).sp = s.sp := rfl
@[simp] theorem State.raise_delayTimer (c : HaltCause) :
    (s.raise c).delayTimer =
      s.delayTimer := rfl
@[simp] theorem State.raise_soundTimer (c : HaltCause) :
    (s.raise c).soundTimer =
      s.soundTimer := rfl
@[simp] theorem State.raise_keys (c : HaltCause) : (s.raise c).keys = s.keys := rfl
@[simp] theorem State.raise_fb (c : HaltCause) : (s.raise c).fb = s.fb := rfl
@[simp] theorem State.raise_halted (c : HaltCause) : (s.raise c).halted = true := rfl
@[simp] theorem State.raise_haltCause (c : HaltCause) : (s.raise c).haltCause = c := rfl

@[simp] theorem keyWrite_config (k : Fin 16) (b : Bool) : (keyWrite s k b).config = s.config := rfl
@[simp] theorem keyWrite_mem (k : Fin 16) (b : Bool) : (keyWrite s k b).mem = s.mem := rfl
@[simp] theorem keyWrite_regs (k : Fin 16) (b : Bool) : (keyWrite s k b).regs = s.regs := rfl
@[simp] theorem keyWrite_index (k : Fin 16) (b : Bool) : (keyWrite s k b).index = s.index := rfl
@[simp] theorem keyWrite_pc (k : Fin 16) (b : Bool) : (keyWrite s k b).pc = s.pc := rfl
@[simp] theorem keyWrite_stack (k : Fin 16) (b : Bool) : (keyWrite s k b).stack = s.stack := rfl
@[simp] theorem keyWrite_sp (k : Fin 16) (b : Bool) : (keyWrite s k b).sp = s.sp := rfl
@[simp] theorem keyWrite_delayTimer (k : Fin 16) (b : Bool) :
    (keyWrite s k b).delayTimer =
      s.delayTimer := rfl
@[simp] theorem keyWrite_soundTimer (k : Fin 16) (b : Bool) :
    (keyWrite s k b).soundTimer =
      s.soundTimer := rfl
@[simp] theorem keyWrite_keys (k : Fin 16) (b : Bool) :
    (keyWrite s k b).keys =
      s.keys.set k b := rfl
@[simp] theorem keyWrite_fb (k : Fin 16) (b : Bool) : (keyWrite s k b).fb = s.fb := rfl
@[simp] theorem keyWrite_halted (k : Fin 16) (b : Bool) : (keyWrite s k b).halted = s.halted := rfl
@[simp] theorem keyWrite_haltCause (k : Fin 16) (b : Bool) :
    (keyWrite s k b).haltCause =
      s.haltCause := rfl

/-! Registers read through `State.reg`. -/

theorem State.reg_setReg (r q : Reg) (v : Byte) :
    (s.setReg r v).reg q = if q = r then v else s.reg q := by
  simp only [State.reg, State.setReg_regs, Fin.getElem_fin]
  rw [Vector.getElem_set]
  simp only [Fin.val_inj, eq_comm]

@[simp] theorem State.reg_setReg_self (r : Reg) (v : Byte) : (s.setReg r v).reg r = v := by
  simp [State.reg_setReg]

@[simp] theorem State.reg_store (a : Nat) (v : Byte) (q : Reg) : (s.store a v).reg q = s.reg q := rfl
@[simp] theorem State.reg_toggleCell (row col : Nat) (q : Reg) :
    (s.toggleCell row col).reg q = s.reg q := rfl
@[simp] theorem State.reg_advance (q : Reg) : s.advance.reg q = s.reg q := rfl
@[simp] theorem State.reg_skipWhen (b : Bool) (q : Reg) : (s.skipWhen b).reg q = s.reg q := rfl
@[simp] theorem State.reg_raise (c : HaltCause) (q : Reg) : (s.raise c).reg q = s.reg q := rfl

/-! Memory and the framebuffer read through `State.load` and `State.cell`. -/

@[simp] theorem State.load_setReg (r : Reg) (v : Byte) (a : Nat) : (s.setReg r v).load a = s.load a := rfl
@[simp] theorem State.load_toggleCell (row col a : Nat) : (s.toggleCell row col).load a = s.load a := rfl
@[simp] theorem State.load_advance (a : Nat) : s.advance.load a = s.load a := rfl
@[simp] theorem State.load_skipWhen (b : Bool) (a : Nat) : (s.skipWhen b).load a = s.load a := rfl
@[simp] theorem State.load_raise (c : HaltCause) (a : Nat) : (s.raise c).load a = s.load a := rfl

@[simp] theorem State.cell_setReg (r : Reg) (v : Byte) (row col : Nat) :
    (s.setReg r v).cell row col = s.cell row col := rfl
@[simp] theorem State.cell_store (a : Nat) (v : Byte) (row col : Nat) :
    (s.store a v).cell row col = s.cell row col := rfl
@[simp] theorem State.cell_advance (row col : Nat) : s.advance.cell row col = s.cell row col := rfl
@[simp] theorem State.cell_raise (c : HaltCause) (row col : Nat) :
    (s.raise c).cell row col = s.cell row col := rfl

/-! Data addresses depend on `I` only. -/

@[simp] theorem State.dataAddr_setReg (r : Reg) (v : Byte) (i : Nat) :
    (s.setReg r v).dataAddr i = s.dataAddr i := rfl
@[simp] theorem State.dataAddr_store (a : Nat) (v : Byte) (i : Nat) :
    (s.store a v).dataAddr i = s.dataAddr i := rfl
@[simp] theorem State.dataAddr_toggleCell (row col i : Nat) :
    (s.toggleCell row col).dataAddr i = s.dataAddr i := rfl

/-! Timers written by the host. -/

@[simp] theorem timerWrite_delay (v : Byte) : timerWrite s .delay v = { s with delayTimer := v } := rfl
@[simp] theorem timerWrite_sound (v : Byte) : timerWrite s .sound v = { s with soundTimer := v } := rfl

end Sys2Proof.Machine
end

