-- ==== Sys2Proof/Laws/Ops.lean ====
section
/-! SUPPORT. What each shared operation can do, said once: stores and loads, the multi-byte loops of STM
and LDM, the transfer check, and stopping. -/

namespace Sys2Proof.Machine

variable {s : State}

/-! ### Memory -/

/-- Read after write in memory. -/
theorem State.load_store (h : Memory.wf s.config s.mem = true) (a b : Nat) (v : Byte) :
    (s.store a v).load b = if b = a then v else s.load b :=
  Cells.read_write h b

/-- A store inside memory keeps the canonical form. -/
theorem State.store_wf (h : Memory.wf s.config s.mem = true) {a : Nat} (ha : a < memSize) (v : Byte) :
    Memory.wf s.config (s.store a v).mem = true :=
  Cells.wf_write h (Nat.zero_le a) ha

theorem State.dataAddr_eq (i : Nat) : s.dataAddr i = s.index.toNat + i := rfl

/-- The transfer check in the spec's words (R67): nothing is moved, or the last byte is at most `0xFFF`. -/
theorem State.dataInRange_iff (count : Nat) :
    s.dataInRange count = true ↔ count = 0 ∨ s.index.toNat + (count - 1) ≤ 0xFFF := by
  unfold State.dataInRange State.dataAddr
  rw [Bool.or_eq_true, beq_iff_eq, decide_eq_true_iff]

theorem State.dataInRange_succ_iff (k : Nat) :
    s.dataInRange (k + 1) = true ↔ s.index.toNat + k ≤ 0xFFF := by
  simp [State.dataInRange_iff]

/-- A checked transfer has its effect, or it is the Fatal stop and nothing else. -/
theorem State.transfer_eq (count : Nat) (effect : State → State) :
    (s.dataInRange count = true ∧ s.transfer count effect = .next (effect s)) ∨
    (s.dataInRange count = false ∧ s.transfer count effect = .next (s.raise .memOutOfBounds)) := by
  unfold State.transfer
  cases s.dataInRange count <;> simp

theorem State.transfer_of_inRange {count : Nat} (h : s.dataInRange count = true)
    (effect : State → State) : s.transfer count effect = .next (effect s) := by
  simp [State.transfer, h]

theorem State.transfer_of_outOfRange {count : Nat} (h : s.dataInRange count = false)
    (effect : State → State) : s.transfer count effect = .next (s.raise .memOutOfBounds) := by
  simp [State.transfer, h]

@[simp] theorem regAt_val (r : Reg) : regAt r.val = r := by simp [regAt]

theorem regAt_val_of_lt {i : Nat} (h : i < 16) : (regAt i).val = i := by
  simp [regAt, Nat.mod_eq_of_lt h]

/-! ### The loop of STM -/

/-- What STM's loop may touch. -/
def State.memFrame (s t : State) : Prop := t = { s with mem := t.mem }

/-- The loop of STM changes memory and nothing else. -/
theorem State.storeRegs_frame (count : Nat) : s.memFrame (s.storeRegs count) := by
  induction count with
  | zero => rfl
  | succ i ih => exact congrArg (fun w : State => { w with mem := (s.storeRegs (i + 1)).mem }) ih

@[simp] theorem State.storeRegs_reg (count : Nat) (q : Reg) : (s.storeRegs count).reg q = s.reg q := by
  rw [State.storeRegs_frame]; rfl

@[simp] theorem State.storeRegs_dataAddr (count i : Nat) :
    (s.storeRegs count).dataAddr i = s.dataAddr i := by
  rw [State.storeRegs_frame]; rfl

@[simp] theorem State.storeRegs_config (count : Nat) : (s.storeRegs count).config = s.config := by
  rw [State.storeRegs_frame]

theorem State.storeRegs_wf (h : Memory.wf s.config s.mem = true) {count : Nat}
    (hr : s.index.toNat + count ≤ memSize) : Memory.wf s.config (s.storeRegs count).mem = true := by
  induction count with
  | zero => exact h
  | succ i ih =>
    have h' : Memory.wf (s.storeRegs i).config (s.storeRegs i).mem = true := by
      simpa using ih (by omega)
    simpa [State.storeRegs] using
      State.store_wf h' (a := s.dataAddr i) (by simp only [State.dataAddr]; omega) (s.reg (regAt i))

/-- The loop of STM, byte by byte: `memory[I + i]` is `V[i]` for `i < count`, the rest as before. -/
theorem State.storeRegs_load (h : Memory.wf s.config s.mem = true) {count : Nat}
    (hr : s.index.toNat + count ≤ memSize) (a : Nat) :
    (s.storeRegs count).load a =
      if s.index.toNat ≤ a ∧ a < s.index.toNat + count then s.reg (regAt (a - s.index.toNat))
      else s.load a := by
  induction count with
  | zero => simp [State.storeRegs]
  | succ i ih =>
    have h' : Memory.wf (s.storeRegs i).config (s.storeRegs i).mem = true := by
      simpa using State.storeRegs_wf h (by omega)
    show ((s.storeRegs i).store _ _).load a = _
    rw [State.load_store h', ih (by omega), State.storeRegs_dataAddr, State.storeRegs_reg,
      State.dataAddr_eq]
    by_cases ha : a = s.index.toNat + i
    · rw [if_pos ha, if_pos (by omega), ha, Nat.add_sub_cancel_left]
    · rw [if_neg ha]
      exact if_congr (by omega) rfl rfl

/-! ### The loop of LDM -/

/-- What LDM's loop may touch. -/
def State.regFrame (s t : State) : Prop := t = { s with regs := t.regs }

/-- The loop of LDM changes general registers and nothing else. -/
theorem State.loadRegs_frame (count : Nat) : s.regFrame (s.loadRegs count) := by
  induction count with
  | zero => rfl
  | succ i ih => exact congrArg (fun w : State => { w with regs := (s.loadRegs (i + 1)).regs }) ih

@[simp] theorem State.loadRegs_load (count a : Nat) : (s.loadRegs count).load a = s.load a := by
  rw [State.loadRegs_frame]; rfl

@[simp] theorem State.loadRegs_dataAddr (count i : Nat) :
    (s.loadRegs count).dataAddr i = s.dataAddr i := by
  rw [State.loadRegs_frame]; rfl

/-- The loop of LDM, register by register: `V[i]` is `memory[I + i]` for `i < count`, the rest as before. -/
theorem State.loadRegs_reg {count : Nat} (hc : count ≤ 16) (q : Reg) :
    (s.loadRegs count).reg q = if q.val < count then s.load (s.dataAddr q.val) else s.reg q := by
  induction count with
  | zero => simp [State.loadRegs]
  | succ i ih =>
    show ((s.loadRegs i).setReg _ _).reg q = _
    rw [State.reg_setReg, ih (by omega)]
    have hi := regAt_val_of_lt (show i < 16 by omega)
    by_cases hq : q = regAt i
    · have hv : q.val = i := by rw [hq, hi]
      simp [hq, hi]
    · have hv : q.val ≠ i := fun he => hq (Fin.ext (by rw [hi, he]))
      simp only [hq, if_false]
      split_ifs <;> first | rfl | omega

/-! ### Stopping -/

/-- The Halt sequence (R224). -/
theorem State.raise_of_halt {c : HaltCause} (h : c.isFatal = false) :
    s.raise c = { s with halted := true, haltCause := c, pc := s.pc + 2 } := by
  simp [State.raise, h]

/-- The Fatal sequence (R225). -/
theorem State.raise_of_fatal {c : HaltCause} (h : c.isFatal = true) :
    s.raise c = { s with halted := true, haltCause := c } := by
  simp [State.raise, h]

/-! ### The invariant -/

/-- The invariant holds again after a change of registers, `I`, `pc`, the stack's contents, the timers
and the keys: none of them is part of it. -/
theorem State.Inv.of_same {t : State} (h : s.Inv) (hc : t.config = s.config) (hm : t.mem = s.mem)
    (hf : t.fb = s.fb) (hsp : t.sp = s.sp) (hh : t.halted = s.halted)
    (hcause : t.haltCause = s.haltCause) : t.Inv := by
  simpa [State.Inv, hc, hm, hf, hsp, hh, hcause] using h

theorem State.Inv.setReg (h : s.Inv) (r : Reg) (v : Byte) : (s.setReg r v).Inv :=
  h.of_same rfl rfl rfl rfl rfl rfl

theorem State.Inv.advance (h : s.Inv) : s.advance.Inv := h.of_same rfl rfl rfl rfl rfl rfl

theorem State.Inv.skipWhen (h : s.Inv) (b : Bool) : (s.skipWhen b).Inv :=
  h.of_same rfl rfl rfl rfl rfl rfl

/-- A stop with a cause other than `NONE` keeps the invariant. -/
theorem State.Inv.raise (h : s.Inv) {c : HaltCause} (hc : c ≠ .none) : (s.raise c).Inv := by
  obtain ⟨hm, hf, htv, hsp, -, hcfg⟩ := h
  exact ⟨hm, hf, htv, hsp, by cases c <;> simp_all, hcfg⟩

theorem State.Inv.store (h : s.Inv) {a : Nat} (ha : a < memSize) (v : Byte) : (s.store a v).Inv :=
  ⟨State.store_wf h.1 ha v, h.2⟩

theorem State.Inv.storeRegs (h : s.Inv) {count : Nat} (hr : s.index.toNat + count ≤ memSize) :
    (s.storeRegs count).Inv := by
  have hwf := State.storeRegs_wf h.1 hr
  rw [State.storeRegs_frame]
  exact ⟨hwf, h.2⟩

theorem State.Inv.loadRegs (h : s.Inv) (count : Nat) : (s.loadRegs count).Inv := by
  rw [State.loadRegs_frame]
  exact h.of_same rfl rfl rfl rfl rfl rfl

end Sys2Proof.Machine
end

