-- ==== Sys2Proof/Laws/Display.lean ====
section
/-! SUPPORT. What drawing does: which cells it toggles, the flag it leaves, and all that it leaves alone. -/

namespace Sys2Proof.Machine

variable {s : State}

/-- Two cells of the grid have the same number only when they are the same cell. -/
theorem cellNumber_inj {c : Config} {row col row' col' : Nat} (h : col < c.fbCols) (h' : col' < c.fbCols) :
    cellNumber c row col = cellNumber c row' col' ↔ row = row' ∧ col = col' := by
  constructor
  · intro he
    simp only [cellNumber] at he
    have hpos : 0 < c.fbCols := by omega
    have hr : row = row' := by
      have := congrArg (· / c.fbCols) he
      simpa [Nat.add_div hpos, Nat.mul_div_cancel _ hpos, Nat.div_eq_of_lt h, Nat.div_eq_of_lt h',
        Nat.mul_mod_left, Nat.mod_eq_of_lt h, Nat.mod_eq_of_lt h', Nat.not_le.mpr h,
        Nat.not_le.mpr h'] using this
    subst hr
    exact ⟨rfl, by omega⟩
  · rintro ⟨rfl, rfl⟩; rfl

/-- A cell of the grid has a number inside the framebuffer's store. -/
theorem cellNumber_lt {c : Config} {row col : Nat} (hr : row < c.fbRows) (hc : col < c.fbCols) :
    cellNumber c row col < c.fbRows * c.fbCols := by
  have : (row + 1) * c.fbCols ≤ c.fbRows * c.fbCols := Nat.mul_le_mul_right _ hr
  simp only [cellNumber]
  rw [Nat.add_mul] at this
  omega

/-- A toggled cell is inverted, every other cell of the grid is as before. -/
theorem State.cell_toggleCell (h : Framebuffer.wf s.config s.fb = true) {row col row' col' : Nat}
    (hc : col < s.config.fbCols) (hc' : col' < s.config.fbCols) :
    (s.toggleCell row col).cell row' col' =
      if row' = row ∧ col' = col then s.cell row' col' ^^^ pixelOn else s.cell row' col' := by
  show Cells.read _ (Cells.write _ _ _ _) (cellNumber s.config row' col') = _
  rw [Cells.read_write h]
  simp only [cellNumber_inj hc' hc]
  split
  · next he => rw [he.1, he.2]
  · rfl

/-- What part of the state drawing may touch. -/
def State.drawFrame (s t : State) : Prop := t = { s with regs := t.regs, fb := t.fb }

theorem State.drawFrame_refl : s.drawFrame s := rfl

theorem State.drawFrame_trans {t v : State} (h : s.drawFrame t) (h' : t.drawFrame v) : s.drawFrame v :=
  h'.trans (congrArg (fun w : State => { w with regs := v.regs, fb := v.fb }) h)

theorem State.drawPixel_frame (row col : Nat) (bit : Bool) : s.drawFrame (s.drawPixel row col bit) := by
  unfold State.drawPixel
  split
  · rfl
  · split <;> rfl

theorem State.drawRow_frame (x0 row : Nat) (b : Byte) (count : Nat) :
    s.drawFrame (s.drawRow x0 row b count) := by
  induction count with
  | zero => rfl
  | succ c ih => exact State.drawFrame_trans ih (State.drawPixel_frame row (x0 + c) (spriteBit b c))

theorem State.drawRows_frame (x0 y0 count : Nat) : s.drawFrame (s.drawRows x0 y0 count) := by
  induction count with
  | zero => rfl
  | succ r ih => exact State.drawFrame_trans ih (State.drawRow_frame _ _ _ _)

theorem State.drawFrame.config {t : State} (h : s.drawFrame t) : t.config = s.config := by rw [h]
theorem State.drawFrame.load {t : State} (h : s.drawFrame t) (a : Nat) : t.load a = s.load a := by
  rw [h]; rfl
theorem State.drawFrame.dataAddr {t : State} (h : s.drawFrame t) (i : Nat) : t.dataAddr i = s.dataAddr i := by
  rw [h]; rfl

/-! Registers other than the flag register are left alone. -/

theorem State.drawPixel_reg {q : Reg} (hq : q ≠ flagReg) (row col : Nat) (bit : Bool) :
    (s.drawPixel row col bit).reg q = s.reg q := by
  unfold State.drawPixel
  split
  · rfl
  · split
    · simp [State.reg_setReg, hq]
    · rfl

theorem State.drawRow_reg {q : Reg} (hq : q ≠ flagReg) (x0 row : Nat) (b : Byte) (count : Nat) :
    (s.drawRow x0 row b count).reg q = s.reg q := by
  induction count with
  | zero => rfl
  | succ c ih => exact (State.drawPixel_reg hq _ _ _).trans ih

theorem State.drawRows_reg {q : Reg} (hq : q ≠ flagReg) (x0 y0 count : Nat) :
    (s.drawRows x0 y0 count).reg q = s.reg q := by
  induction count with
  | zero => rfl
  | succ r ih => exact (State.drawRow_reg hq _ _ _ _).trans ih

/-! The flag: 1 once an in-bounds pixel was set, else as before (R194). -/

theorem ite_ite_or {α : Type} {P Q : Prop} [Decidable P] [Decidable Q] (a b : α) :
    (if P then a else if Q then a else b) = if Q ∨ P then a else b := by
  by_cases hP : P <;> by_cases hQ : Q <;> simp [hP, hQ]

theorem State.drawPixel_flag (row col : Nat) (bit : Bool) :
    (s.drawPixel row col bit).reg flagReg =
      if row < s.config.fbRows ∧ col < s.config.fbCols ∧ bit = true then 0x01 else s.reg flagReg := by
  unfold State.drawPixel
  split_ifs <;> first | rfl | omega | simp_all

theorem State.drawRow_flag (x0 row : Nat) (b : Byte) (count : Nat) :
    (s.drawRow x0 row b count).reg flagReg =
      if row < s.config.fbRows ∧ ∃ c < count, x0 + c < s.config.fbCols ∧ spriteBit b c = true then 0x01
      else s.reg flagReg := by
  induction count with
  | zero => simp [State.drawRow]
  | succ c ih =>
    show (State.drawPixel _ _ _ _).reg flagReg = _
    rw [State.drawPixel_flag, ih, (State.drawRow_frame x0 row b c).config]
    rw [ite_ite_or]
    refine if_congr ?_ rfl rfl
    simp only [Nat.lt_succ_iff_lt_or_eq, or_and_right, exists_or, exists_eq_left, and_or_left]

theorem State.drawRows_flag (x0 y0 count : Nat) :
    (s.drawRows x0 y0 count).reg flagReg =
      if ∃ r < count, y0 + r < s.config.fbRows ∧ ∃ c < spriteWidth, x0 + c < s.config.fbCols ∧
          spriteBit (s.load (s.dataAddr r)) c = true then 0x01
      else s.reg flagReg := by
  induction count with
  | zero => simp [State.drawRows]
  | succ r ih =>
    have hf := State.drawRows_frame (s := s) x0 y0 r
    show (State.drawRow _ _ _ _ _).reg flagReg = _
    rw [State.drawRow_flag, ih, hf.config, hf.load, hf.dataAddr]
    rw [ite_ite_or]
    refine if_congr ?_ rfl rfl
    exact Nat.exists_lt_succ_right.symm

/-- The flag of the whole sprite, in the words of the claims. -/
theorem State.spriteSetsSome_iff (x0 y0 n : Nat) :
    s.spriteSetsSome x0 y0 n ↔ ∃ r < n, y0 + r < s.config.fbRows ∧ ∃ c < spriteWidth,
      x0 + c < s.config.fbCols ∧ spriteBit (s.load (s.dataAddr r)) c = true := by
  simp only [State.spriteSetsSome, State.spriteSets, Bool.and_eq_true, decide_eq_true_eq]
  constructor
  · rintro ⟨row, hrow, col, hcol, ⟨⟨⟨⟨h1, h2⟩, h3⟩, h4⟩, h5⟩⟩
    exact ⟨row - y0, by omega, by omega, col - x0, by omega, by omega, h5⟩
  · rintro ⟨r, hr, hrow, c, hc, hcol, hb⟩
    refine ⟨y0 + r, hrow, x0 + c, hcol, ?_⟩
    refine ⟨⟨⟨⟨by omega, by omega⟩, by omega⟩, by omega⟩, ?_⟩
    rwa [Nat.add_sub_cancel_left, Nat.add_sub_cancel_left]

/-! The cells: those with a set sprite bit are toggled, the others left alone (R193). -/

theorem State.toggleCell_wf (h : Framebuffer.wf s.config s.fb = true) {row col : Nat}
    (hr : row < s.config.fbRows) (hc : col < s.config.fbCols) :
    Framebuffer.wf s.config (s.toggleCell row col).fb = true :=
  Cells.wf_write h (Nat.zero_le _) (cellNumber_lt hr hc)

theorem State.drawPixel_wf (h : Framebuffer.wf s.config s.fb = true) (row col : Nat) (bit : Bool) :
    Framebuffer.wf s.config (s.drawPixel row col bit).fb = true := by
  unfold State.drawPixel
  split
  · exact h
  · next hin =>
    split
    · exact State.toggleCell_wf h (by omega) (by omega)
    · exact h

theorem State.drawRow_wf (h : Framebuffer.wf s.config s.fb = true) (x0 row : Nat) (b : Byte) (count : Nat) :
    Framebuffer.wf s.config (s.drawRow x0 row b count).fb = true := by
  induction count with
  | zero => exact h
  | succ c ih =>
    have hc := (State.drawRow_frame (s := s) x0 row b c).config
    have := State.drawPixel_wf (s := s.drawRow x0 row b c) (by rw [hc]; exact ih) row (x0 + c) (spriteBit b c)
    rwa [hc] at this

theorem State.drawRows_wf (h : Framebuffer.wf s.config s.fb = true) (x0 y0 count : Nat) :
    Framebuffer.wf s.config (s.drawRows x0 y0 count).fb = true := by
  induction count with
  | zero => exact h
  | succ r ih =>
    have hc := (State.drawRows_frame (s := s) x0 y0 r).config
    have := State.drawRow_wf (s := s.drawRows x0 y0 r) (by rw [hc]; exact ih) x0 (y0 + r)
      ((s.drawRows x0 y0 r).load ((s.drawRows x0 y0 r).dataAddr r)) spriteWidth
    rwa [hc] at this

theorem State.cell_drawPixel (h : Framebuffer.wf s.config s.fb = true) {row' col' : Nat}
    (hr' : row' < s.config.fbRows) (hc' : col' < s.config.fbCols) (row col : Nat) (bit : Bool) :
    (s.drawPixel row col bit).cell row' col' =
      if row' = row ∧ col' = col ∧ bit = true then s.cell row' col' ^^^ pixelOn else s.cell row' col' := by
  unfold State.drawPixel
  split
  · next hout => rw [if_neg (by omega)]
  · next hin =>
    split
    · next hb => simp [State.cell_toggleCell h (show col < s.config.fbCols by omega) hc', hb]
    · next hb => simp [hb]

theorem State.cell_drawRow (h : Framebuffer.wf s.config s.fb = true) {row' col' : Nat}
    (hr' : row' < s.config.fbRows) (hc' : col' < s.config.fbCols) (x0 row : Nat) (b : Byte) (count : Nat) :
    (s.drawRow x0 row b count).cell row' col' =
      if row' = row ∧ x0 ≤ col' ∧ col' < x0 + count ∧ spriteBit b (col' - x0) = true
      then s.cell row' col' ^^^ pixelOn else s.cell row' col' := by
  induction count with
  | zero => rw [if_neg (by omega)]; rfl
  | succ c ih =>
    have hc := (State.drawRow_frame (s := s) x0 row b c).config
    show (State.drawPixel _ _ _ _).cell row' col' = _
    rw [State.cell_drawPixel (by rw [hc]; exact State.drawRow_wf h _ _ _ _) (by rwa [hc]) (by rwa [hc]), ih]
    by_cases he : col' = x0 + c
    · subst he
      simp
    · have : col' < x0 + c ↔ col' < x0 + (c + 1) := by omega
      simp [he, this]

/-- The cells of the grid after the whole sprite: inverted where the sprite sets them. -/
theorem State.cell_drawRows (h : Framebuffer.wf s.config s.fb = true) {row' col' : Nat}
    (hr' : row' < s.config.fbRows) (hc' : col' < s.config.fbCols) (x0 y0 count : Nat) :
    (s.drawRows x0 y0 count).cell row' col' =
      if s.spriteSets x0 y0 count row' col' = true then s.cell row' col' ^^^ pixelOn
      else s.cell row' col' := by
  induction count with
  | zero =>
    rw [if_neg]
    · rfl
    · simp only [State.spriteSets, Bool.and_eq_true, decide_eq_true_eq]; omega
  | succ r ih =>
    have hf := State.drawRows_frame (s := s) x0 y0 r
    show (State.drawRow _ _ _ _ _).cell row' col' = _
    rw [State.cell_drawRow (by rw [hf.config]; exact State.drawRows_wf h _ _ _) (by rwa [hf.config])
      (by rwa [hf.config]), ih, hf.load, hf.dataAddr]
    simp only [State.spriteSets, Bool.and_eq_true, decide_eq_true_eq]
    by_cases he : row' = y0 + r
    · subst he
      simp only [Nat.add_sub_cancel_left]
      rw [if_neg (by omega : ¬ ((((y0 ≤ y0 + r ∧ y0 + r < y0 + r) ∧ _) ∧ _) ∧ _))]
      congr 1
      simp only [eq_iff_iff]
      constructor <;> (intro hh; refine ⟨?_, ?_⟩ <;> first | omega | simp_all)
    · have : row' < y0 + r ↔ row' < y0 + (r + 1) := by omega
      simp [he, this]

/-! Cells stay off or on (R34). -/

theorem State.toggleCell_twoValued (h : Framebuffer.twoValued s.fb = true) (row col : Nat) :
    Framebuffer.twoValued (s.toggleCell row col).fb = true := by
  refine Framebuffer.twoValued_write h ?_
  rcases Framebuffer.read_twoValued h (cellNumber s.config row col) with he | he
  · exact .inr (by show Cells.read _ _ _ ^^^ pixelOn = _; rw [he]; decide)
  · exact .inl (by show Cells.read _ _ _ ^^^ pixelOn = _; rw [he]; decide)

theorem State.drawPixel_twoValued (h : Framebuffer.twoValued s.fb = true) (row col : Nat) (bit : Bool) :
    Framebuffer.twoValued (s.drawPixel row col bit).fb = true := by
  unfold State.drawPixel
  split
  · exact h
  · split
    · exact State.toggleCell_twoValued h row col
    · exact h

theorem State.drawRow_twoValued (h : Framebuffer.twoValued s.fb = true) (x0 row : Nat) (b : Byte)
    (count : Nat) : Framebuffer.twoValued (s.drawRow x0 row b count).fb = true := by
  induction count with
  | zero => exact h
  | succ c ih => exact State.drawPixel_twoValued ih _ _ _

theorem State.drawRows_twoValued (h : Framebuffer.twoValued s.fb = true) (x0 y0 count : Nat) :
    Framebuffer.twoValued (s.drawRows x0 y0 count).fb = true := by
  induction count with
  | zero => exact h
  | succ r ih => exact State.drawRow_twoValued ih _ _ _ _

theorem State.Inv.drawRows (h : s.Inv) (x0 y0 count : Nat) : (s.drawRows x0 y0 count).Inv := by
  have hwf := State.drawRows_wf h.2.1 x0 y0 count
  have htv := State.drawRows_twoValued h.2.2.1 x0 y0 count
  rw [State.drawRows_frame x0 y0 count]
  exact ⟨h.1, hwf, htv, h.2.2.2⟩

end Sys2Proof.Machine
end

