-- ==== Sys2Proof/Laws/PerInstr.lean ====
section
/-! SUPPORT. One lemma per constructor of `Instr` for each family of statements about all instructions
(LAWS.json). Family `EncodeRow`: the opcode table holds an entry that matches the encoded word and
reads the instruction back from it. -/

namespace Sys2Proof.Laws.EncodeRow

/-- The table has, in the bucket of the encoded word, an entry whose mask and value match that word and
whose fields give the instruction back (R95, R96, R109). -/
def Statement (i : Instr) : Prop :=
  i.wellFormed = true → ∃ entries e, bucket (fieldOP (encode i)) = some entries ∧ e ∈ entries ∧
    e.Matches (encode i) = true ∧ e.build (encode i) = i

theorem of_layoutA {i : Instr} {op : BitVec 4} {k : BitVec 12} {entries : List Entry} {e : Entry}
    (he : encode i = layoutA op k) (hb : bucket op = some entries) (hm : e ∈ entries)
    (hmask : e.mask = 0xF000) (hv : layoutA op 0 = e.value) (hi : e.build (layoutA op k) = i) :
    Statement i := fun _ => by
  refine ⟨entries, e, ?_, hm, ?_, ?_⟩
  · rw [he, fieldOP_layoutA, hb]
  · rw [he, Entry.Matches, hmask, layoutA_and_F000, hv, beq_self_eq_true]
  · rw [he, hi]

theorem of_layoutXI {i : Instr} {op : BitVec 4} {x : Reg} {nn : Byte} {entries : List Entry} {e : Entry}
    (he : encode i = layoutXI op x nn) (hb : bucket op = some entries) (hm : e ∈ entries)
    (hmask : e.mask = 0xF000) (hv : layoutA op 0 = e.value) (hi : e.build (layoutXI op x nn) = i) :
    Statement i := fun _ => by
  refine ⟨entries, e, ?_, hm, ?_, ?_⟩
  · rw [he, fieldOP_layoutXI, hb]
  · rw [he, Entry.Matches, hmask, layoutXI_and_F000, hv, beq_self_eq_true]
  · rw [he, hi]

theorem of_layoutXF {i : Instr} {op : BitVec 4} {x : Reg} {f : Byte} {entries : List Entry} {e : Entry}
    (he : encode i = layoutXI op x f) (hb : bucket op = some entries) (hm : e ∈ entries)
    (hmask : e.mask = 0xF0FF) (hv : layoutXI op 0 f = e.value) (hi : e.build (layoutXI op x f) = i) :
    Statement i := fun _ => by
  refine ⟨entries, e, ?_, hm, ?_, ?_⟩
  · rw [he, fieldOP_layoutXI, hb]
  · rw [he, Entry.Matches, hmask, layoutXI_and_F0FF, hv, beq_self_eq_true]
  · rw [he, hi]

theorem of_layoutXY {i : Instr} {op : BitVec 4} {x y : Reg} {f : BitVec 4} {entries : List Entry}
    {e : Entry} (he : encode i = layoutXYN op x y f) (hb : bucket op = some entries) (hm : e ∈ entries)
    (hmask : e.mask = 0xF00F) (hv : layoutXYN op 0 0 f = e.value)
    (hi : e.build (layoutXYN op x y f) = i) : Statement i := fun _ => by
  refine ⟨entries, e, ?_, hm, ?_, ?_⟩
  · rw [he, fieldOP_layoutXYN, hb]
  · rw [he, Entry.Matches, hmask, layoutXYN_and_F00F, hv, beq_self_eq_true]
  · rw [he, hi]

theorem ret : Statement .ret := fun _ => ⟨_, _, rfl, List.mem_singleton_self _, rfl, rfl⟩

theorem jp (nnn : Word) : Statement (.jp nnn) := fun h => by
  obtain ⟨k, rfl⟩ := exists_nnn_of_le (by simpa [Instr.wellFormed] using h)
  exact of_layoutA (or_setWidth_layoutA 1 k) rfl (List.mem_singleton_self _) rfl rfl (by simp) h

theorem call (nnn : Word) : Statement (.call nnn) := fun h => by
  obtain ⟨k, rfl⟩ := exists_nnn_of_le (by simpa [Instr.wellFormed] using h)
  exact of_layoutA (or_setWidth_layoutA 2 k) rfl (List.mem_singleton_self _) rfl rfl (by simp) h

theorem iset (nnn : Word) : Statement (.iset nnn) := fun h => by
  obtain ⟨k, rfl⟩ := exists_nnn_of_le (by simpa [Instr.wellFormed] using h)
  exact of_layoutA (or_setWidth_layoutA 10 k) rfl (List.mem_singleton_self _) rfl rfl (by simp) h

theorem drw (x y : Reg) (n : Nat) : Statement (.drw x y n) := fun h => by
  obtain ⟨k, rfl⟩ := exists_n_of_le (by simpa [Instr.wellFormed] using h)
  have he : encode (.drw x y k.toNat) = layoutXYN 0xD x y k := by
    rw [← or_placeX_placeY_ofNat, encode, BitVec.ofNat_toNat]
    rfl
  refine ⟨_, _, by rw [he, fieldOP_layoutXYN]; rfl, List.mem_singleton_self _, ?_, ?_⟩
  · rw [he, Entry.Matches, layoutXYN_and_F000]; rfl
  · rw [he]; simp

theorem sei (x : Reg) (nn : Byte) : Statement (.sei x nn) :=
  of_layoutXI (or_placeX_setWidth 3 x nn) rfl (List.mem_singleton_self _) rfl rfl (by simp)

theorem snei (x : Reg) (nn : Byte) : Statement (.snei x nn) :=
  of_layoutXI (or_placeX_setWidth 4 x nn) rfl (List.mem_singleton_self _) rfl rfl (by simp)

theorem movi (x : Reg) (nn : Byte) : Statement (.movi x nn) :=
  of_layoutXI (or_placeX_setWidth 6 x nn) rfl (List.mem_singleton_self _) rfl rfl (by simp)

theorem addi (x : Reg) (nn : Byte) : Statement (.addi x nn) :=
  of_layoutXI (or_placeX_setWidth 7 x nn) rfl (List.mem_singleton_self _) rfl rfl (by simp)

theorem ser (x y : Reg) : Statement (.ser x y) :=
  of_layoutXY (or_placeX_placeY 5 x y 0) rfl (.head _) rfl rfl (by simp)

theorem sner (x y : Reg) : Statement (.sner x y) :=
  of_layoutXY (or_placeX_placeY 9 x y 0) rfl (.head _) rfl rfl (by simp)

theorem mov (x y : Reg) : Statement (.mov x y) :=
  of_layoutXY (or_placeX_placeY 8 x y 0) rfl (.head _) rfl rfl (by simp)

theorem or (x y : Reg) : Statement (.or x y) :=
  of_layoutXY (or_placeX_placeY 8 x y 1) rfl (.tail _ (.head _)) rfl rfl (by simp)

theorem and (x y : Reg) : Statement (.and x y) :=
  of_layoutXY (or_placeX_placeY 8 x y 2) rfl (.tail _ (.tail _ (.head _))) rfl rfl (by simp)

theorem xor (x y : Reg) : Statement (.xor x y) :=
  of_layoutXY (or_placeX_placeY 8 x y 3) rfl (.tail _ (.tail _ (.tail _ (.head _)))) rfl rfl (by simp)

theorem add (x y : Reg) : Statement (.add x y) :=
  of_layoutXY (or_placeX_placeY 8 x y 4) rfl (.tail _ (.tail _ (.tail _ (.tail _ (.head _))))) rfl rfl (by simp)

theorem subr (x y : Reg) : Statement (.subr x y) :=
  of_layoutXY (or_placeX_placeY 8 x y 5) rfl (.tail _ (.tail _ (.tail _ (.tail _ (.tail _ (.head _)))))) rfl rfl (by simp)

theorem shr (x y : Reg) : Statement (.shr x y) :=
  of_layoutXY (or_placeX_placeY 8 x y 6) rfl (.tail _ (.tail _ (.tail _ (.tail _ (.tail _ (.tail _ (.head _))))))) rfl rfl (by simp)

theorem shl (x y : Reg) : Statement (.shl x y) :=
  of_layoutXY (or_placeX_placeY 8 x y 14) rfl (.tail _ (.tail _ (.tail _ (.tail _ (.tail _ (.tail _ (.tail _ (.head _)))))))) rfl rfl (by simp)

theorem skp (x : Reg) : Statement (.skp x) :=
  of_layoutXF (or_placeX 0xE x 0x9E) rfl (.head _) rfl rfl (by simp)

theorem sknp (x : Reg) : Statement (.sknp x) :=
  of_layoutXF (or_placeX 0xE x 0xA1) rfl (.tail _ (.head _)) rfl rfl (by simp)

theorem gdt (x : Reg) : Statement (.gdt x) :=
  of_layoutXF (or_placeX 0xF x 0x07) rfl (.head _) rfl rfl (by simp)

theorem wkey (x : Reg) : Statement (.wkey x) :=
  of_layoutXF (or_placeX 0xF x 0x0A) rfl (.tail _ (.head _)) rfl rfl (by simp)

theorem sdt (x : Reg) : Statement (.sdt x) :=
  of_layoutXF (or_placeX 0xF x 0x15) rfl (.tail _ (.tail _ (.head _))) rfl rfl (by simp)

theorem sst (x : Reg) : Statement (.sst x) :=
  of_layoutXF (or_placeX 0xF x 0x18) rfl (.tail _ (.tail _ (.tail _ (.head _)))) rfl rfl (by simp)

theorem iadd (x : Reg) : Statement (.iadd x) :=
  of_layoutXF (or_placeX 0xF x 0x1E) rfl (.tail _ (.tail _ (.tail _ (.tail _ (.head _))))) rfl rfl (by simp)

theorem ifont (x : Reg) : Statement (.ifont x) :=
  of_layoutXF (or_placeX 0xF x 0x29) rfl (.tail _ (.tail _ (.tail _ (.tail _ (.tail _ (.head _)))))) rfl rfl (by simp)

theorem bcd (x : Reg) : Statement (.bcd x) :=
  of_layoutXF (or_placeX 0xF x 0x33) rfl (.tail _ (.tail _ (.tail _ (.tail _ (.tail _ (.tail _ (.head _))))))) rfl rfl (by simp)

theorem stm (x : Reg) : Statement (.stm x) :=
  of_layoutXF (or_placeX 0xF x 0x55) rfl (.tail _ (.tail _ (.tail _ (.tail _ (.tail _ (.tail _ (.tail _ (.head _)))))))) rfl rfl (by simp)

theorem ldm (x : Reg) : Statement (.ldm x) :=
  of_layoutXF (or_placeX 0xF x 0x65) rfl (.tail _ (.tail _ (.tail _ (.tail _ (.tail _ (.tail _ (.tail _ (.tail _ (.head _))))))))) rfl rfl (by simp)

end Sys2Proof.Laws.EncodeRow
end

