-- ==== Sys2Proof/Laws/Step.lean ====
section
/-! SUPPORT. What a step can do and what each instruction that can stop can do, said once: the later
proofs cite these and unfold neither `step` nor a meaning. -/

namespace Sys2Proof.Machine

variable {s : State}

/-! ### The step -/

/-- Two bytes compose the word whose number they give, the high byte first (R62). -/
theorem composeWord_of_toNat {w : Word} {hi lo : Byte} (h : w.toNat = 256 * hi.toNat + lo.toNat) :
    composeWord hi lo = w := by
  apply BitVec.eq_of_toNat_eq
  have happ : (composeWord hi lo).toNat = hi.toNat <<< 8 ||| lo.toNat := BitVec.toNat_append hi lo
  rw [happ, h, ← Nat.shiftLeft_add_eq_or_of_lt lo.isLt, Nat.shiftLeft_eq]
  omega

theorem composeWord_toNat (hi lo : Byte) : (composeWord hi lo).toNat = 256 * hi.toNat + lo.toNat := by
  have hlt : 256 * hi.toNat + lo.toNat < 2 ^ 16 := by
    have := hi.isLt
    have := lo.isLt
    omega
  have h := composeWord_of_toNat (w := BitVec.ofNat 16 (256 * hi.toNat + lo.toNat)) (hi := hi) (lo := lo)
    (by rw [BitVec.toNat_ofNat, Nat.mod_eq_of_lt hlt])
  rw [h, BitVec.toNat_ofNat, Nat.mod_eq_of_lt hlt]

theorem step_of_halted (h : s.halted = true) : step s = .next s := by
  simp [step, h, State.haltedCycle]

/-- Everything a step can be, each case with the guard under which it is taken (R121 to R125, R227). -/
theorem step_cases (s : State) :
    (s.halted = true ∧ step s = .next s) ∨
    (s.halted = false ∧ s.pc.toNat > 0xFFE ∧ s.nextInstr = none ∧
      step s = .next (s.raise .fetchOutOfBounds)) ∨
    (s.halted = false ∧ s.pc.toNat ≤ 0xFFE ∧ s.nextInstr = none ∧
      step s = .next (s.raise .unknownInstruction)) ∨
    (∃ i, s.halted = false ∧ s.pc.toNat ≤ 0xFFE ∧ s.nextInstr = some i ∧ step s = exec i s) := by
  cases hh : s.halted with
  | true => exact .inl ⟨rfl, step_of_halted hh⟩
  | false =>
    right
    by_cases hp : s.pc.toNat ≤ 0xFFE
    · right
      have hn : s.nextInstr = decodeWord (s.wordAt s.pc.toNat) := by simp [State.nextInstr, hh, hp]
      have hstep : step s = match decodeWord (s.wordAt s.pc.toNat) with
          | some i => exec i s
          | none => .next (s.raise .unknownInstruction) := by
        simp only [step, hh, State.fetchBytes, hp, decode, State.wordAt, State.unknownWord, if_true]
        cases decodeWord (composeWord (s.load s.pc.toNat) (s.load (s.pc.toNat + 1))) <;> simp
      rw [hn, hstep]
      cases decodeWord (s.wordAt s.pc.toNat) with
      | none => exact .inl ⟨rfl, hp, rfl, rfl⟩
      | some i => exact .inr ⟨i, rfl, hp, rfl, rfl⟩
    · left
      exact ⟨rfl, by omega, by simp [State.nextInstr, hp],
        by simp [step, hh, State.fetchBytes, hp, State.fetchFailed]⟩

/-! ### The instructions that can stop -/

/-- CALL: below 16 entries it pushes and jumps, at 16 it is the Fatal stop, above 16 the model's fault. -/
theorem exec_call (nnn : Word) (s : State) :
    (∃ h : s.sp.toNat < 16, exec (.call nnn) s =
      .next { s with stack := s.stack.set s.sp.toNat (s.pc + 2) h, sp := s.sp + 1, pc := nnn }) ∨
    (s.sp.toNat = 16 ∧ exec (.call nnn) s = .next (s.raise .stackOverflow)) ∨
    (s.sp.toNat > 16 ∧ exec (.call nnn) s = .fault .noSuchStackEntry) := by
  simp only [exec, execCall]
  rcases lt_trichotomy s.sp.toNat 16 with h | h | h
  · have hne : s.sp ≠ 16 := fun he => by rw [he] at h; exact absurd h (by decide)
    exact .inl ⟨h, by rw [if_neg hne, dif_pos h]⟩
  · have heq : s.sp = 16 := BitVec.eq_of_toNat_eq h
    exact .inr (.inl ⟨h, by rw [if_pos heq]⟩)
  · have hne : s.sp ≠ 16 := fun he => by rw [he] at h; exact absurd h (by decide)
    exact .inr (.inr ⟨h, by rw [if_neg hne, dif_neg (by simp only [stackDepth]; omega)]⟩)

/-- RET: with 1 to 16 entries it pops, with none it is the Fatal stop, above 16 the model's fault. -/
theorem exec_ret (s : State) :
    (∃ j : Fin 16, s.sp.toNat = j.val + 1 ∧
      exec .ret s = .next { s with sp := s.sp - 1, pc := s.stack[j] }) ∨
    (s.sp.toNat = 0 ∧ exec .ret s = .next (s.raise .stackUnderflow)) ∨
    (s.sp.toNat > 16 ∧ exec .ret s = .fault .noSuchStackEntry) := by
  simp only [exec, execRet]
  by_cases h0 : s.sp.toNat = 0
  · exact .inr (.inl ⟨h0, by rw [if_pos (BitVec.eq_of_toNat_eq h0)]⟩)
  · have hne : s.sp ≠ 0 := fun he => h0 (by rw [he]; rfl)
    by_cases h : s.sp.toNat ≤ 16
    · exact .inl ⟨⟨s.sp.toNat - 1, by omega⟩, by show s.sp.toNat = s.sp.toNat - 1 + 1; omega,
        by rw [if_neg hne, dif_pos (by simp only [stackDepth]; omega)]; rfl⟩
    · exact .inr (.inr ⟨by omega, by rw [if_neg hne, dif_neg (by simp only [stackDepth]; omega)]⟩)

/-- STM: the loop, or the Fatal stop when a byte of the transfer lies above `0xFFF`. -/
theorem exec_stm (x : Reg) (s : State) :
    (s.index.toNat + x.val ≤ 0xFFF ∧
      exec (.stm x) s = .next (s.storeRegs (x.val + 1)).advance) ∨
    (s.index.toNat + x.val > 0xFFF ∧ exec (.stm x) s = .next (s.raise .memOutOfBounds)) := by
  rcases State.transfer_eq (s := s) (x.val + 1) (fun t => (t.storeRegs (x.val + 1)).advance) with
    ⟨hr, he⟩ | ⟨hr, he⟩
  · exact .inl ⟨(State.dataInRange_succ_iff _).mp hr, he⟩
  · exact .inr ⟨Nat.lt_of_not_le fun h => by simp [(State.dataInRange_succ_iff _).mpr h] at hr, he⟩

/-- LDM: the loop, or the Fatal stop when a byte of the transfer lies above `0xFFF`. -/
theorem exec_ldm (x : Reg) (s : State) :
    (s.index.toNat + x.val ≤ 0xFFF ∧
      exec (.ldm x) s = .next (s.loadRegs (x.val + 1)).advance) ∨
    (s.index.toNat + x.val > 0xFFF ∧ exec (.ldm x) s = .next (s.raise .memOutOfBounds)) := by
  rcases State.transfer_eq (s := s) (x.val + 1) (fun t => (t.loadRegs (x.val + 1)).advance) with
    ⟨hr, he⟩ | ⟨hr, he⟩
  · exact .inl ⟨(State.dataInRange_succ_iff _).mp hr, he⟩
  · exact .inr ⟨Nat.lt_of_not_le fun h => by simp [(State.dataInRange_succ_iff _).mpr h] at hr, he⟩

/-- DRW: the rows drawn after the flag is cleared, or the Fatal stop when a row byte lies above `0xFFF`. -/
theorem exec_drw (x y : Reg) (n : Nat) (s : State) :
    ((n = 0 ∨ s.index.toNat + (n - 1) ≤ 0xFFF) ∧
      exec (.drw x y n) s =
        .next ((s.setReg flagReg 0x00).drawRows (s.reg x).toNat (s.reg y).toNat n).advance) ∨
    (n > 0 ∧ s.index.toNat + (n - 1) > 0xFFF ∧ exec (.drw x y n) s = .next (s.raise .memOutOfBounds)) := by
  rcases State.transfer_eq (s := s) n
      (fun t => ((t.setReg flagReg 0x00).drawRows (s.reg x).toNat (s.reg y).toNat n).advance) with
    ⟨hr, he⟩ | ⟨hr, he⟩
  · exact .inl ⟨(State.dataInRange_iff n).mp hr, he⟩
  · have hn : ¬ (n = 0 ∨ s.index.toNat + (n - 1) ≤ 0xFFF) := fun h => by
      simp [(State.dataInRange_iff n).mpr h] at hr
    exact .inr ⟨by omega, by omega, he⟩

/-! ### What the loops leave, field by field -/

theorem State.storeRegs_advance_eq (count : Nat) :
    (s.storeRegs count).advance = { s with mem := (s.storeRegs count).mem, pc := s.pc + 2 } :=
  congrArg (fun w : State => { w with pc := w.pc + 2 }) (State.storeRegs_frame (s := s) count)

theorem State.loadRegs_advance_eq (count : Nat) :
    (s.loadRegs count).advance = { s with regs := (s.loadRegs count).regs, pc := s.pc + 2 } :=
  congrArg (fun w : State => { w with pc := w.pc + 2 }) (State.loadRegs_frame (s := s) count)

theorem State.drawRows_advance_eq (v : Byte) (x0 y0 n : Nat) :
    ((s.setReg flagReg v).drawRows x0 y0 n).advance =
      { s with regs := ((s.setReg flagReg v).drawRows x0 y0 n).regs,
               fb := ((s.setReg flagReg v).drawRows x0 y0 n).fb
               pc := s.pc + 2 } :=
  congrArg (fun w : State => { w with pc := w.pc + 2 }) (State.drawRows_frame (s := s.setReg flagReg v) x0 y0 n)

end Sys2Proof.Machine
end

