-- ==== Sys2Proof/Laws/Ports.lean ====
section
/-! SUPPORT. What loading an image and listing a program do, said once. -/

namespace Sys2Proof.Machine

variable {s : State}

/-! ### Loading an image -/

/-- Loading an image changes memory and nothing else. -/
theorem State.loadImage_frame (a : Nat) (image : List Byte) : s.memFrame (s.loadImage a image) := by
  induction image generalizing s a with
  | nil => rfl
  | cons b rest ih => exact ih (s := s.store a b) (a + 1)

/-- An image that fits keeps the canonical form. -/
theorem State.loadImage_wf (h : Memory.wf s.config s.mem = true) {a : Nat} {image : List Byte}
    (hfit : a + image.length ≤ memSize) : Memory.wf s.config (s.loadImage a image).mem = true := by
  induction image generalizing s a with
  | nil => exact h
  | cons b rest ih =>
    rw [List.length_cons] at hfit
    exact ih (s := s.store a b) (State.store_wf h (by omega) b) (by omega)

/-- After loading an image, its bytes read from `a` on, and every other address reads as before. -/
theorem State.loadImage_load (h : Memory.wf s.config s.mem = true) {a : Nat} {image : List Byte}
    (hfit : a + image.length ≤ memSize) (b : Nat) :
    (s.loadImage a image).load b =
      if hb : a ≤ b ∧ b < a + image.length then image[b - a]'(by omega) else s.load b := by
  induction image generalizing s a with
  | nil => rw [dif_neg (by simp only [List.length_nil]; omega)]; rfl
  | cons v rest ih =>
    rw [List.length_cons] at hfit
    show ((s.store a v).loadImage (a + 1) rest).load b = _
    rw [ih (s := s.store a v) (State.store_wf h (by omega) v) (by omega), State.load_store h]
    by_cases hba : b = a
    · subst hba
      rw [dif_neg (by omega), if_pos rfl, dif_pos (by simp only [List.length_cons]; omega)]
      simp
    · by_cases hin : a + 1 ≤ b ∧ b < a + 1 + rest.length
      · rw [dif_pos hin, dif_pos (by simp only [List.length_cons]; omega),
          List.getElem_cons, dif_neg (by omega)]
        congr 1
      · rw [dif_neg hin, dif_neg (by simp only [List.length_cons]; omega), if_neg hba]

/-! ### Listing a program -/

@[simp] theorem State.linesFrom_length (a count : Nat) : (s.linesFrom a count).length = count := by
  induction count generalizing a with
  | zero => rfl
  | succ n ih => simp [State.linesFrom, ih]

theorem State.linesFrom_getElem {a count k : Nat} (h : k < (s.linesFrom a count).length) :
    (s.linesFrom a count)[k] = disasm (s.wordAt (a + 2 * k)) := by
  induction count generalizing a k with
  | zero => simp [State.linesFrom] at h
  | succ n ih =>
    cases k with
    | zero => rfl
    | succ k =>
      simp only [State.linesFrom, List.getElem_cons_succ, ih]
      congr 2
      omega

end Sys2Proof.Machine
end

