-- ==== Sys2Proof/Tests/Slice0.lean ====
section
/-! SUPPORT. The model's own tests. The expected results are the worked examples of the spec
(95_test_vectors.md; a vector's id stands in the docstring), its encoding lines (30_encoding.md), or a
hand calculation from the rule named. Then, for every statement with hypotheses, states and operands that
meet them, clause by clause. -/

namespace Sys2Proof.Tests

open Sys2Proof.Machine

/-! ### Small states -/

/-- `s` with the word `w` placed where the next cycle fetches. -/
def placed (w : Nat) (s : State := State.reset) : State := s.withFetchWord 16 w

/-- The state after one cycle. -/
def next (s : State) : Option State :=
  match step s with
  | .next t => some t
  | .fault _ => none
  | .refused _ => none

/-- After reset, with `V[0]`, `V[1]`, `V[2]`, `V[3]` and `VF` set. -/
def withRegs (v0 v1 v2 v3 vf : Byte) : State :=
  ((((State.reset.setReg 0 v0).setReg 1 v1).setReg 2 v2).setReg 3 v3).setReg 15 vf

/-- `s` with `I` set. -/
def withIndex (i : Word) (s : State := State.reset) : State := { s with index := i }

/-- `s` with `pc` set. -/
def withPc (p : Word) (s : State := State.reset) : State := { s with pc := p }

/-- `s` with `sp` set. -/
def withSp (n : BitVec 8) (s : State := State.reset) : State := { s with sp := n }

/-- The cycle of the word `w` from `s` leaves `V[0]`, `V[1]` and `VF` as given, adds 2 to `pc`, and
changes nothing else. -/
def aluGives (w : Nat) (s : State) (v0 v1 vf : Byte) : Bool :=
  next (placed w s) ==
    some (withPc 0x0202 ((((placed w s).setReg 0 v0).setReg 1 v1).setReg 15 vf))

/-! ### WellFormed refuses ill-formed terms -/

theorem test_wellFormed_jp : Instr.wellFormed (.jp 0x1000) = false ∧ Instr.wellFormed (.jp 0xFFF) = true := by
  decide
theorem test_wellFormed_call :
    Instr.wellFormed (.call 0xF000) = false ∧ Instr.wellFormed (.call 0xFFF) = true := by decide
theorem test_wellFormed_iset :
    Instr.wellFormed (.iset 0x1333) = false ∧ Instr.wellFormed (.iset 0x000) = true := by decide
theorem test_wellFormed_drw :
    Instr.wellFormed (.drw 1 2 16) = false ∧ Instr.wellFormed (.drw 15 15 15) = true := by decide

/-! ### Decoding: words written out from the spec's encoding lines (R100 to R104) -/

theorem test_decode_ret : decodeWord 0b0000000011101110 = some .ret := by decide
theorem test_decode_jp : decodeWord 0b0001001010100000 = some (.jp 0x2A0) := by decide
theorem test_decode_call : decodeWord 0b0010111111111111 = some (.call 0xFFF) := by decide
theorem test_decode_sei : decodeWord 0b0011101000000111 = some (.sei 0xA 0x07) := by decide
theorem test_decode_snei : decodeWord 0b0100000100000010 = some (.snei 1 0x02) := by decide
theorem test_decode_ser : decodeWord 0b0101000100100000 = some (.ser 1 2) := by decide
theorem test_decode_movi : decodeWord 0b0110010000110011 = some (.movi 4 0x33) := by decide
theorem test_decode_addi : decodeWord 0b0111000011111111 = some (.addi 0 0xFF) := by decide
theorem test_decode_mov : decodeWord 0b1000000100100000 = some (.mov 1 2) := by decide
theorem test_decode_or : decodeWord 0b1000000100100001 = some (.or 1 2) := by decide
theorem test_decode_and : decodeWord 0b1000000100100010 = some (.and 1 2) := by decide
theorem test_decode_xor : decodeWord 0b1000000100100011 = some (.xor 1 2) := by decide
theorem test_decode_add : decodeWord 0b1000111100010100 = some (.add 15 1) := by decide
theorem test_decode_subr : decodeWord 0b1000000111110101 = some (.subr 1 15) := by decide
theorem test_decode_shr : decodeWord 0b1000001110100110 = some (.shr 3 0xA) := by decide
theorem test_decode_shl : decodeWord 0b1000111100001110 = some (.shl 15 0) := by decide
theorem test_decode_sner : decodeWord 0b1001000100100000 = some (.sner 1 2) := by decide
theorem test_decode_iset : decodeWord 0b1010001100110011 = some (.iset 0x333) := by decide
theorem test_decode_drw : decodeWord 0b1101000100100101 = some (.drw 1 2 5) := by decide
theorem test_decode_skp : decodeWord 0b1110000110011110 = some (.skp 1) := by decide
theorem test_decode_sknp : decodeWord 0b1110000110100001 = some (.sknp 1) := by decide
theorem test_decode_gdt : decodeWord 0b1111001100000111 = some (.gdt 3) := by decide
theorem test_decode_wkey : decodeWord 0b1111000000001010 = some (.wkey 0) := by decide
theorem test_decode_sdt : decodeWord 0b1111000100010101 = some (.sdt 1) := by decide
theorem test_decode_sst : decodeWord 0b1111000100011000 = some (.sst 1) := by decide
theorem test_decode_iadd : decodeWord 0b1111111000011110 = some (.iadd 14) := by decide
theorem test_decode_ifont : decodeWord 0b1111000000101001 = some (.ifont 0) := by decide
theorem test_decode_bcd : decodeWord 0b1111001000110011 = some (.bcd 2) := by decide
theorem test_decode_stm : decodeWord 0b1111000101010101 = some (.stm 1) := by decide
theorem test_decode_ldm : decodeWord 0b1111010001100101 = some (.ldm 4) := by decide

/-- CY1, CY6 to CY10 and the words next to table entries: unknown words (R105). -/
theorem test_decode_unknown : ([0x0000, 0x00E0, 0x00ED, 0x00EF, 0x01EE, 0x5121, 0x9121, 0x8127, 0x8128,
    0x812D, 0x812F, 0xB123, 0xC1FF, 0xE100, 0xE19D, 0xE1A2, 0xF100, 0xF106, 0xF166, 0xF1FF] :
    List Word).all (fun w => (decodeWord w).isNone) = true := by decide +kernel

/-- R62, R90: two bytes, the high one first; what follows is left; less than two is no instruction. -/
theorem test_decode_bytes :
    (match decode [0xA3, 0x33, 0x64] with | .ok r => some r | .error _ => none) =
        some (.iset 0x333, [0x64]) ∧
      (match decode [0x81, 0x27] with | .ok _ => none | .error e => some e) =
        some (.unknownInstruction 0x8127) ∧
      (match decode [0xA3] with | .ok _ => none | .error e => some e) = some .truncated ∧
      (match decode [] with | .ok _ => none | .error e => some e) = some .truncated := by decide

/-- R109: the bytes of `ISET 0x333` and of `SUBR V1, V2`. -/
theorem test_encode_bytes :
    encodeBytes (.iset 0x333) = [0xA3, 0x33] ∧ encodeBytes (.subr 1 2) = [0x81, 0x25] := by decide

theorem test_decodeTableWord :
    decodeTableWord 16 0xD125 = some (.drw 1 2 5) ∧ decodeTableWord 16 0x0000 = none := by decide

/-! ### The cycle -/

/-- CY1: the all-zero word of an empty image. -/
theorem test_cycle_unknown : next State.reset =
    some { State.reset with halted := true, haltCause := .unknownInstruction, pc := 0x0202 } := by decide

/-- CY2: a cycle on a halted machine. -/
theorem test_cycle_halted : (next State.reset).bind next = next State.reset := by decide

/-- CY3: a fetch outside memory. -/
theorem test_cycle_fetch : next (withPc 0x0FFF) =
    some { withPc 0x0FFF with halted := true, haltCause := .fetchOutOfBounds } := by decide

/-- CY4: the last word of memory. -/
theorem test_cycle_last : (next (placed 0x6007 (withPc 0x0FFE))).map
    (fun t => (t.reg 0, t.pc, t.halted)) = some (0x07, 0x1000, false) := by decide

/-- CY5: an odd address. -/
theorem test_cycle_odd : (next (placed 0x6105 (withPc 0x0201))).map
    (fun t => (t.reg 1, t.pc)) = some (0x05, 0x0203) := by decide

/-! ### Control flow -/

/-- CF1, CF2. -/
theorem test_jp : next (placed 0x12A0) = some (withPc 0x02A0 (placed 0x12A0)) ∧
    (next (placed 0x1000)).map (·.pc) = some 0x0000 := by decide

/-- CF5, CF7. -/
theorem test_call : (next (placed 0x2208)).map (fun t => (t.stack[0], t.sp, t.pc)) =
      some (0x0202, 1, 0x0208) ∧
    (next (placed 0x2300 (withPc 0x0FFE))).map (fun t => (t.stack[0], t.sp, t.pc)) =
      some (0x1000, 1, 0x0300) := by decide

/-- CF6. -/
theorem test_call_overflow : next (placed 0x2300 (withSp 16)) =
    some { placed 0x2300 (withSp 16) with halted := true, haltCause := .stackOverflow } := by decide

/-- A stack with `0x0202` in entry 0 and `0x0ABC` in entry 15. -/
def someStack : Vector Word 16 := #v[0x0202, 0, 0, 0, 0, 0, 0, 0, 0, 0, 0, 0, 0, 0, 0, 0x0ABC]

/-- CF8, and the same with a full stack. -/
theorem test_ret :
    (next (placed 0x00EE (withPc 0x020E { withSp 1 with stack := someStack }))).map
      (fun t => (t.sp, t.pc, t.stack[0])) = some (0, 0x0202, 0x0202) ∧
    (next (placed 0x00EE { withSp 16 with stack := someStack })).map
      (fun t => (t.sp, t.pc)) = some (15, 0x0ABC) := by decide

/-- CF9. -/
theorem test_ret_underflow : next (placed 0x00EE) =
    some { placed 0x00EE with halted := true, haltCause := .stackUnderflow } := by decide

/-- CF10, CF11. -/
theorem test_sei : (next (placed 0x332A (withPc 0x0210 (withRegs 0 0 0 0x2A 0)))).map (·.pc) = some 0x0214 ∧
    (next (placed 0x332A (withPc 0x0210 (withRegs 0 0 0 0x2B 0)))).map (·.pc) = some 0x0212 := by decide

/-- CF12, CF20: a skip onto the first address outside memory, and over an unknown word. -/
theorem test_sei_edges : (next (placed 0x3000 (withPc 0x0FFC))).map
      (fun t => (t.pc, t.halted)) = some (0x1000, false) ∧
    (next (placed 0x3000)).map (fun t => (t.pc, t.halted)) = some (0x0204, false) := by decide

/-- CF13, CF14. -/
theorem test_snei : (next (placed 0x4000 (withRegs 0x01 0 0 0 0))).map (·.pc) = some 0x0204 ∧
    (next (placed 0x4000)).map (·.pc) = some 0x0202 := by decide

/-- CF15, CF16, CF17. -/
theorem test_ser : (next (placed 0x5120 (withRegs 0 0x07 0x07 0 0))).map (·.pc) = some 0x0204 ∧
    (next (placed 0x5120 (withRegs 0 0x07 0x08 0 0))).map (·.pc) = some 0x0202 ∧
    (next (placed 0x5440)).map (·.pc) = some 0x0204 := by decide

/-- CF18, CF19. -/
theorem test_sner : (next (placed 0x9120 (withRegs 0 0x07 0x08 0 0))).map (·.pc) = some 0x0204 ∧
    (next (placed 0x9440)).map (·.pc) = some 0x0202 := by decide

/-! ### Registers and ALU -/

/-- AL1 (with register 0), AL2. -/
theorem test_movi : aluGives 0x6033 (withRegs 0x0A 0 0 0 0) 0x33 0 0 = true ∧
    aluGives 0x6F80 (withRegs 0 0 0 0 0x01) 0 0 0x80 = true := by decide

/-- AL3, AL5. -/
theorem test_addi : aluGives 0x7002 (withRegs 0xFF 0 0 0 0) 0x01 0 0 = true ∧
    aluGives 0x7F20 (withRegs 0 0 0 0 0xF0) 0 0 0x10 = true := by decide

/-- AL6. -/
theorem test_mov : aluGives 0x8120 (withRegs 0 0 0x5C 0 0x07) 0 0x5C 0x07 = true := by decide

/-- AL7. -/
theorem test_or : aluGives 0x8121 (withRegs 0 0x0F 0xA0 0 0x01) 0 0xAF 0x01 = true := by decide

/-- AL8. -/
theorem test_and : aluGives 0x8122 (withRegs 0 0x3C 0x0F 0 0x01) 0 0x0C 0x01 = true := by decide

/-- AL9, the document's own example. -/
theorem test_xor : aluGives 0x8123 (withRegs 0 23 56 0 0) 0 0x2F 0 = true := by decide

/-- AL11, AL13. -/
theorem test_add : aluGives 0x8014 (withRegs 0xFF 0x01 0 0 0) 0 0x01 0x01 = true ∧
    aluGives 0x8014 (withRegs 0x7F 0x80 0 0 0x01) 0xFF 0x80 0 = true := by decide

/-- AL17, AL18, AL19. -/
theorem test_add_flag : aluGives 0x8F14 (withRegs 0 0xF5 0 0 0x10) 0 0xF5 0x01 = true ∧
    aluGives 0x8F14 (withRegs 0 0x05 0 0 0x10) 0 0x05 0 = true ∧
    aluGives 0x81F4 (withRegs 0 0xFF 0 0 0x01) 0 0 0x01 = true := by decide

/-- AL20, AL21, AL22. -/
theorem test_subr : aluGives 0x8125 (withRegs 0 5 3 0 0) 0 0xFE 0x01 = true ∧
    aluGives 0x8125 (withRegs 0 3 5 0 1) 0 0x02 0 = true ∧
    aluGives 0x8125 (withRegs 0 7 7 0 1) 0 0 0 = true := by decide

/-- AL27, AL28, AL29. -/
theorem test_subr_flag : aluGives 0x8F15 (withRegs 0 1 0 0 2) 0 1 0x01 = true ∧
    aluGives 0x8F15 (withRegs 0 2 0 0 1) 0 2 0 = true ∧
    aluGives 0x81F5 (withRegs 0 4 0 0 9) 0 5 0 = true := by decide

/-- AL30 and AL31 (with register 1), AL33's ignored `Y`. -/
theorem test_shr : aluGives 0x8106 (withRegs 0 0x05 0 0 0) 0 0x02 0x01 = true ∧
    aluGives 0x8106 (withRegs 0 0x80 0 0 1) 0 0x40 0 = true ∧
    aluGives 0x81A6 (withRegs 0 0xFF 0 0 0) 0 0x7F 0x01 = true := by decide

/-- AL34, AL35. -/
theorem test_shr_flag : aluGives 0x8F06 (withRegs 0 0 0 0 0xFF) 0 0 0 = true ∧
    aluGives 0x8F06 (withRegs 0 0 0 0 0x01) 0 0 0 = true := by decide

/-- AL36, AL37 (with register 1). -/
theorem test_shl : aluGives 0x810E (withRegs 0 0x81 0 0 0) 0 0x02 0x01 = true ∧
    aluGives 0x810E (withRegs 0 0x40 0 0 1) 0 0x80 0 = true := by decide

/-- AL40, AL41, AL42. -/
theorem test_shl_flag : aluGives 0x8F0E (withRegs 0 0 0 0 0x80) 0 0 2 = true ∧
    aluGives 0x8F0E (withRegs 0 0 0 0 0x7F) 0 0 0 = true ∧
    aluGives 0x8F0E (withRegs 0 0 0 0 0xFF) 0 0 2 = true := by decide

/-! ### Index and memory -/

/-- IM1, the document's own example. -/
theorem test_iset : next (placed 0xA333) = some (withIndex 0x0333 (withPc 0x0202 (placed 0xA333))) := by
  decide

/-- IM3, IM4. -/
theorem test_iadd :
    (next (placed 0xF21E (withIndex 0x0FFF (withRegs 0 0 0x01 0 0)))).map
      (fun t => (t.index, t.reg 15, t.halted)) = some (0x1000, 0, false) ∧
    (next (placed 0xF21E (withIndex 0xFFFF (withRegs 0 0 0x02 0 0)))).map (·.index) = some 0x0001 := by
  decide

/-- IM6, IM7. -/
theorem test_ifont : (next (placed 0xF029 (withRegs 0x0F 0 0 0 0))).map (·.index) = some 0x004B ∧
    (next (placed 0xF029 (withRegs 0xFF 0 0 0 0))).map (·.index) = some 0x04FB := by decide

/-- IM8. -/
theorem test_stm : (next (placed 0xF155 (withIndex 0x0300 (withRegs 0x9A 0xF0 0x55 0 0)))).map
    (fun t => (t.load 0x2FF, t.load 0x300, t.load 0x301, t.load 0x302, t.index)) =
      some (0, 0x9A, 0xF0, 0, 0x0300) := by decide

/-- IM9, IM10. -/
theorem test_stm_edge : (next (placed 0xF055 (withIndex 0x0FFF (withRegs 0x11 0 0 0 0)))).map
      (fun t => (t.load 0xFFF, t.halted)) = some (0x11, false) ∧
    next (placed 0xF155 (withIndex 0x0FFF (withRegs 0x11 0x22 0 0 0))) =
      some { placed 0xF155 (withIndex 0x0FFF (withRegs 0x11 0x22 0 0 0)) with
        halted := true, haltCause := .memOutOfBounds } := by decide

/-- IM11, IM12: glyph bytes of the default font. -/
theorem test_ldm : (next (placed 0xF465)).map (fun t => (t.regs.toList, t.index)) =
      some ([0xF0, 0x90, 0x90, 0x90, 0xF0, 0, 0, 0, 0, 0, 0, 0, 0, 0, 0, 0], 0) ∧
    (next (placed 0xFF65 (withIndex 0x0032))).map (fun t => t.regs.toList) =
      some [0xF0, 0x90, 0xF0, 0x90, 0x90, 0xE0, 0x90, 0xE0, 0x90, 0xE0, 0xF0, 0x80, 0x80, 0x80, 0xF0, 0xE0] := by
  decide

/-- IM13. -/
theorem test_ldm_edge : next (placed 0xF165 (withIndex 0x0FFF (withRegs 0x11 0x22 0 0 0))) =
    some { placed 0xF165 (withIndex 0x0FFF (withRegs 0x11 0x22 0 0 0)) with
      halted := true, haltCause := .memOutOfBounds } := by decide

/-! ### The framebuffer -/

/-- The set-up of DW1 to DW11: sprite bytes `C0 FF 81` at `0x300`. -/
def sprite (s : State) : State := ((s.store 0x300 0xC0).store 0x301 0xFF).store 0x302 0x81

/-- The lit cells (64 columns, so cell `(row, column)` is number `64 * row + column`) and `VF`. -/
def lit (s : State) : Option (List Nat × Byte) := (next s).map fun t => (t.fb.map (·.1), t.reg 15)

/-- DW4: clipped at the right and the bottom edge. -/
theorem test_drw_clip : lit (placed 0xD123 (withIndex 0x300 (sprite (withRegs 0 60 30 0 0)))) =
    some ([64 * 30 + 60, 64 * 30 + 61, 64 * 31 + 60, 64 * 31 + 61, 64 * 31 + 62, 64 * 31 + 63], 0x01) := by
  decide +kernel

/-- DW5 (a lit cell turned off) and DW9 (`X = 15`: the column is the old flag). -/
theorem test_drw_xor :
    lit (placed 0xD121 (withIndex 0x300 (sprite { State.reset with fb := [(0, 0xFF)] }))) =
      some ([1], 0x01) ∧
    lit (placed 0xDF11 (withIndex 0x300 (sprite (withRegs 0 2 0 0 3)))) =
      some ([64 * 2 + 3, 64 * 2 + 4], 0x01) := by decide +kernel

/-- DW3, DW10, DW2, DW11: nothing lit, and the flag cleared. -/
theorem test_drw_nothing :
    lit (placed 0xD123 (withIndex 0x300 (sprite (withRegs 0 64 0 0 7)))) = some ([], 0) ∧
    lit (placed 0xD121 (withIndex 0x300 (sprite (withRegs 0 255 0 0 0)))) = some ([], 0) ∧
    lit (placed 0xD120 (withIndex 0x300 (sprite (withRegs 0 0 0 0 7)))) = some ([], 0) ∧
    lit (placed 0xD121 (withIndex 0x050 (withRegs 0 0 0 0 9))) = some ([], 0) := by decide +kernel

/-- DW7, and DW8's last readable row byte. -/
theorem test_drw_edge : next (placed 0xD122 (withIndex 0x0FFF (withRegs 0 0 0 0 7))) =
      some { placed 0xD122 (withIndex 0x0FFF (withRegs 0 0 0 0 7)) with
        halted := true, haltCause := .memOutOfBounds } ∧
    lit (placed 0xD121 (withIndex 0x0FFF (withRegs 0 0 0 0 7))) = some ([], 0) := by decide +kernel

/-! ### Stubs -/

/-- The state after a stub (R224): the cause, `pc + 2`, and nothing else. -/
def stubbed (s : State) : State :=
  { s with halted := true, haltCause := .unimplementedInstruction, pc := 0x0202 }

/-- SB1, SB2: with key 5 down and `V[1] = 5`. -/
theorem test_skp_sknp : let s := keyWrite (withRegs 0 5 0 0 0) 5 true
    next (placed 0xE19E s) = some (stubbed (placed 0xE19E s)) ∧
    next (placed 0xE1A1 s) = some (stubbed (placed 0xE1A1 s)) := by decide

/-- SB3, SB4. -/
theorem test_gdt_wkey : let s := timerWrite State.reset .delay 0x3C
    next (placed 0xF307 s) = some (stubbed (placed 0xF307 s)) ∧
    next (placed 0xF00A s) = some (stubbed (placed 0xF00A s)) := by decide

/-- SB5, SB6. -/
theorem test_sdt_sst : let s := withRegs 0x10 0 0 0 0
    next (placed 0xF015 s) = some (stubbed (placed 0xF015 s)) ∧
    next (placed 0xF018 s) = some (stubbed (placed 0xF018 s)) := by decide

/-- SB7. -/
theorem test_bcd : let s := withIndex 0x0FFF (withRegs 0 0 0xFF 0 0)
    next (placed 0xF233 s) = some (stubbed (placed 0xF233 s)) := by decide

/-! ### The disassembler and the ports -/

/-- Lines of the table of part 2.7. -/
theorem test_disasm : disasm 0x2FFF = "CALL 0xFFF" ∧ disasm 0x3A07 = "SEI VA, 0x07" ∧
    disasm 0x83A6 = "SHR V3, VA" ∧ disasm 0xFE1E = "IADD VE" ∧ disasm 0xBABE = "UNKNOWN 0xBABE" := by decide

/-- RS2: an image of odd length; its listing is `ISET 0x333` and `MOVI V4, 0x00`. -/
theorem test_construct : (match construct Config.default [0xA3, 0x33, 0x64] with
    | .next t => some ([t.load 0x200, t.load 0x201, t.load 0x202, t.load 0x203], t.pc,
        (match listing t 3 with | .next l => joinedListing l | .fault _ => "" | .refused _ => ""))
    | .fault _ => none
    | .refused _ => none) =
      some ([0xA3, 0x33, 0x64, 0x00], 0x0200, "ISET 0x333\nMOVI V4, 0x00") := by decide

/-- RS1: the first and the last font byte and the bytes after them. -/
theorem test_reset_memory : State.reset.load 0x000 = 0xF0 ∧ State.reset.load 0x04F = 0x80 ∧
    State.reset.load 0x050 = 0x00 ∧ State.reset.load 0x200 = 0x00 := by decide

/-- RS4: a reset of a halted machine. -/
theorem test_reset_halted : (match (stubbed (withRegs 1 2 3 4 5)).transact (.construct [0x12, 0x00]) with
    | .next t => some (t.halted, t.haltCause, t.reg 0, t.load 0x200)
    | .fault _ => none
    | .refused _ => none) = some (false, .none, 0, 0x12) := by decide

/-- R214: the traced line of the next fetch, and none outside memory. -/
theorem test_trace : traceText (placed 0xA333) = some "ISET 0x333" ∧ traceText (withPc 0xFFF) = none := by
  decide

/-! ### Witnesses: states and operands that meet the hypotheses of the statements

Named after the statement; where it has clauses, at a boundary of each. A state that `next` gives is a next
state of `step` (`next_eq_some_iff`). -/

theorem next_eq_some_iff {s t : State} : next s = some t ↔ step s = .next t := by
  unfold next
  split <;> simp_all

theorem witness_DecodeOfEncodeGivesTheInstruction :
    Instr.wellFormed (.jp 0xFFF) = true ∧ Instr.wellFormed (.drw 15 15 15) = true := by decide

theorem witness_EncodeOfDecodeGivesTheWord : decodeWord 0x83A6 = some (.shr 3 0xA) := by decide

theorem witness_UnknownWordsAreThoseListed : UnknownWord 0x00ED ∧ UnknownWord 0x5001 ∧ UnknownWord 0x8007 ∧
    UnknownWord 0x800F ∧ UnknownWord 0xBFFF ∧ UnknownWord 0xC000 ∧ UnknownWord 0xE09D ∧ UnknownWord 0xFFFF ∧
    ¬ UnknownWord 0x00EE ∧ ¬ UnknownWord 0x800E ∧ ¬ UnknownWord 0xE09E := by
  refine ⟨?_, ?_, ?_, ?_, ?_, ?_, ?_, ?_, ?_, ?_, ?_⟩ <;> simp [UnknownWord]

theorem witness_TableEntriesAreDisjoint : ∃ entries, bucket 0xF = some entries ∧ entries.length = 9 :=
  ⟨bucketF, rfl, rfl⟩

theorem witness_StepRunsTheDecodedInstruction : let s := placed 0x6007 (withPc 0x0FFE)
    s.halted = false ∧ s.pc.toNat ≤ 0xFFE ∧
    (0x6007 : Word).toNat = 256 * (s.load s.pc.toNat).toNat + (s.load (s.pc.toNat + 1)).toNat ∧
    decodeWord 0x6007 = some (.movi 0 7) := by decide

/-- The state after CY1. -/
def stopped : State :=
  { State.reset with halted := true, haltCause := .unknownInstruction, pc := 0x0202 }

theorem witness_HaltedMachineStaysAsItIs : stopped.halted = true ∧ stopped.Inv := by decide

theorem witness_UnknownWordHalts : let s := placed 0xC123 (withPc 0x0FFE)
    s.halted = false ∧ s.pc.toNat ≤ 0xFFE ∧
    (0xC123 : Word).toNat = 256 * (s.load s.pc.toNat).toNat + (s.load (s.pc.toNat + 1)).toNat ∧
    decodeWord 0xC123 = none := by decide

theorem witness_FetchOutOfBoundsIsFatal :
    (withPc 0x0FFF).halted = false ∧ (withPc 0x0FFF).pc.toNat > 0xFFE := by decide

theorem witness_CycleReturnsHalted : State.reset.Inv := by decide

theorem witness_LiteralCycleGivesTheSameState : (placed 0x1000).Inv := by decide

theorem witness_CallPushesTheReturnAddress : (withSp 0).sp.toNat < 16 ∧ (withSp 15).sp.toNat < 16 ∧
    (withSp 16).sp.toNat = 16 := by decide

theorem witness_RetPopsTheReturnAddress : (withSp 1).sp.toNat = (0 : Fin 16).val + 1 ∧
    (withSp 16).sp.toNat = (15 : Fin 16).val + 1 ∧ (withSp 0).sp.toNat = 0 := by decide

theorem witness_StackPointerAboveSixteenFaults : (withSp 17).sp.toNat > 16 ∧ (withSp 255).sp.toNat > 16 := by
  decide

theorem witness_ImmediateSkips : let s := withRegs 7 0 0 0 0
    s.reg 0 = 7 ∧ s.reg 1 ≠ 7 := by decide

theorem witness_RegisterSkips : let s := withRegs 7 7 8 0 0
    s.reg 0 = s.reg 1 ∧ s.reg 0 ≠ s.reg 2 ∧ (1 : BitVec 4) ≠ 0 := by decide

/-- The last entry of the stack: CALL with `sp = 15`, and the state after it for `u`. -/
theorem witness_CallThenRetResumesAfterTheCall : (withSp 15).sp.toNat = (15 : Fin 16).val ∧
    ∃ t, exec (.call 0x300) (withSp 15) = .next t ∧ t.sp = 16 ∧ t.stack[(15 : Fin 16)] = 0x0202 :=
  ⟨by decide, _, rfl, by decide, by decide⟩

/-- A JP to an even address, a CALL to one, and an instruction that is neither. -/
theorem witness_PcStaysEven : ((placed 0x12A0).Inv ∧ (placed 0x12A0).nextInstr = some (.jp 0x2A0) ∧
      (next (placed 0x12A0)).isSome) ∧
    ((placed 0x2208).Inv ∧ (placed 0x2208).nextInstr = some (.call 0x208) ∧
      (next (placed 0x2208)).isSome) ∧
    ((placed 0x6433).Inv ∧ (placed 0x6433).nextInstr = some (.movi 4 0x33) ∧
      (next (placed 0x6433)).isSome) := by decide

theorem witness_PcStaysEven_parity : (placed 0x12A0).EvenPc ∧ (placed 0x2208).EvenPc :=
  ⟨⟨by decide, fun k hk => absurd hk (Nat.not_lt_zero _)⟩, ⟨by decide, fun k hk => absurd hk (Nat.not_lt_zero _)⟩⟩

/-- One state for each of the five: not halted before or after, and the three values of the flag. -/
theorem witness_FlagIsZeroOrOneAfterASideEffect : let s := withRegs 1 0xFF 0 0 0x80
    ∀ p ∈ [(Instr.add 0 1, (1 : Byte)), (.subr 1 0, 1), (.shr 2 0, 0), (.shl 15 0, 2), (.drw 0 1 0, 0)],
      setsFlag p.1 = true ∧ s.halted = false ∧ ∃ t, exec p.1 s = .next t ∧ t.halted = false ∧ t.reg 15 = p.2 := by
  intro s p hp
  simp only [List.mem_cons, List.not_mem_nil, or_false] at hp
  rcases hp with rfl | rfl | rfl | rfl | rfl <;> exact ⟨rfl, rfl, _, rfl, rfl, by decide⟩

/-- The last byte of the transfer at `0xFFF` and at `0x1000`; an address below and one above the bytes. -/
theorem witness_StmStoresTheRegisters : (withIndex 0xFF0).Inv ∧ (withIndex 0xFF1).Inv ∧
    (withIndex 0xFF0).index.toNat + (15 : Reg).val ≤ 0xFFF ∧
    (withIndex 0xFF1).index.toNat + (15 : Reg).val > 0xFFF ∧
    (∀ i : Reg, i ≤ 14 → 0xFEF ≠ (withIndex 0xFF0).dataAddr i.val ∧ 0xFFF ≠ (withIndex 0xFF0).dataAddr i.val) := by
  decide

theorem witness_LdmLoadsTheRegisters : (withIndex 0xFFF).index.toNat + (0 : Reg).val ≤ 0xFFF ∧
    (withIndex 0xFFF).index.toNat + (1 : Reg).val > 0xFFF := by decide

/-- `u` is the state after the STM itself. -/
theorem witness_LdmAfterStmRestoresTheRegisters : let s := withIndex 0xFFE (withRegs 0x12 0x0A 0 0 0)
    s.Inv ∧ s.index.toNat + (1 : Reg).val ≤ 0xFFF ∧ ∃ t, exec (.stm 1) s = .next t ∧ t.index = s.index :=
  ⟨by decide, by decide, _, rfl, rfl⟩

/-- Program P4 at its STM: it writes `JP 0x20A` over the next word. -/
theorem witness_StoredCodeRunsInTheNextCycle : let s := withPc 0x206 (withIndex 0x208 (withRegs 0x12 0x0A 0 0 0))
    s.Inv ∧ s.halted = false ∧ s.index.toNat + (1 : Reg).val ≤ 0xFFF ∧
    s.dataAddr (0 : Reg).val = s.pc.toNat + 2 ∧ s.dataAddr (1 : Reg).val = s.pc.toNat + 3 ∧
    (0x120A : Word).toNat = 256 * (s.reg 0).toNat + (s.reg 1).toNat ∧ decodeWord 0x120A = some (.jp 0x20A) := by
  decide

/-- In range: no row anywhere, and 15 rows that end at `0xFFF`; out of range: one row more. -/
theorem witness_DrwXorsTheSprite : (withIndex 0xFFFF).Inv ∧ (withIndex 0xFF1).Inv ∧
    ((0 : BitVec 4).toNat = 0 ∨ (withIndex 0xFFFF).index.toNat + ((0 : BitVec 4).toNat - 1) ≤ 0xFFF) ∧
    (withIndex 0xFF1).index.toNat + ((15 : BitVec 4).toNat - 1) ≤ 0xFFF ∧
    (withIndex 0xFF2).index.toNat + ((15 : BitVec 4).toNat - 1) > 0xFFF := by decide

/-- Glyph 0 in the last column sets a cell; the column right of the grid sets none. -/
theorem witness_DrwXorsTheSprite_flag : State.reset.spriteSetsSome 63 31 1 ∧ ¬ State.reset.spriteSetsSome 64 0 5 := by
  refine ⟨⟨31, by decide, 63, by decide, by decide⟩, ?_⟩
  rintro ⟨row, -, col, hcol, h⟩
  have hcol' : col < 64 := hcol
  simp only [State.spriteSets, Bool.and_eq_true, decide_eq_true_eq] at h
  omega

theorem witness_DrawingTwiceRestoresTheFramebuffer : (withIndex 0x00F).Inv ∧ (1 : Reg) ≠ 15 ∧ (2 : Reg) ≠ 15 ∧
    (withIndex 0x00F).index.toNat + (5 - 1) ≤ 0xFFF := by decide

theorem witness_FbReadGivesOffOrOn : State.reset.Inv ∧
    (31 < State.reset.config.fbRows ∧ 63 < State.reset.config.fbCols) ∧
    ¬ (32 < State.reset.config.fbRows ∧ 0 < State.reset.config.fbCols) ∧
    ¬ (0 < State.reset.config.fbRows ∧ 64 < State.reset.config.fbCols) := by decide

/-- A state, not halted and with the invariant, whose next cycle sets the cause with the code `c`; for code 0,
one whose next cycle goes on. -/
def reaches (s : State) (c : BitVec 3) : Prop :=
  s.Inv ∧ s.halted = false ∧ (next s).map (fun t => (t.halted, haltCauseOut t)) = some (c != 0, c)

theorem witness_HaltingCycleChangesNothingElse : reaches (placed 0x8127) 1 ∧ reaches (placed 0xF00A) 2 ∧
    reaches (placed 0x2300 (withSp 16)) 3 ∧ reaches (placed 0x00EE) 4 ∧
    reaches (placed 0xD122 (withIndex 0xFFF)) 5 ∧ reaches (withPc 0xFFF) 6 := by
  unfold reaches; decide

theorem witness_HaltCauseSaysWhatHappened : reaches (placed 0x12A0 (withPc 0x0FFE)) 0 ∧
    reaches (placed 0xF155 (withIndex 0xFFF)) 5 ∧ reaches (placed 0xF165 (withIndex 0xFFF)) 5 ∧
    reaches (withPc 0xFFFF) 6 := by
  unfold reaches; decide

theorem witness_InstructionsWriteOnlyTheirState : ∃ t, exec (.ldm 4) State.reset = .next t ∧
    t.reg 4 ≠ State.reset.reg 4 := ⟨_, rfl, by decide⟩

theorem witness_StepKeepsTheInvariant : (placed 0xD125).Inv ∧ stopped.Inv ∧ (withSp 16).Inv := by decide

theorem witness_ResetMeetsTheInvariant : Config.default.wf = true := by decide

theorem witness_TransactionsKeepTheInvariant : State.reset.Inv ∧
    ∀ image, Transaction.construct image ∈
      [Transaction.cycle, .construct [0xA3, 0x33], .keyWrite 5 true, .timerWrite .delay 3, .cycle] →
      image.length ≤ 3584 := by
  refine ⟨by decide, fun image h => ?_⟩
  simp at h
  subst h
  decide

theorem witness_ConstructGivesTheResetValues : (List.replicate 3584 (0xFF : Byte)).length ≤ 3584 ∧
    ([] : List Byte).length ≤ 3584 := ⟨List.length_replicate.le, Nat.zero_le _⟩

theorem witness_OverlongImageIsRefused : (List.replicate 3585 (0xFF : Byte)).length > 3584 :=
  Nat.lt_of_lt_of_eq (by decide : 3584 < 3585) List.length_replicate.symm

/-- From reset, from a halted machine, and from a `pc` outside memory. -/
theorem witness_PlacedWordRunsNext : decodeTableWord 16 0x6433 = some (.movi 4 0x33) ∧
    Memory.wf State.reset.config State.reset.mem = true ∧ Memory.wf stopped.config stopped.mem = true ∧
    Memory.wf (withPc 0xFFFF).config (withPc 0xFFFF).mem = true := by decide

theorem witness_TextDeterminesTheWord : disasm 0x8126 = disasm 0x8126 ∧ disasm 0x8126 ≠ disasm 0x8136 := by decide

theorem witness_ListingIsLinear : 3 ≤ 3584 ∧ 3584 ≤ 3584 ∧ ∃ lines, listing (placed 0xA333) 3 = .next lines ∧
    1 < lines.length ∧ (0xA333 : Word).toNat =
      256 * ((placed 0xA333).load (0x200 + 2 * 0)).toNat + ((placed 0xA333).load (0x200 + 2 * 0 + 1)).toNat :=
  ⟨by decide, by decide, _, rfl, by decide, by decide⟩

end Sys2Proof.Tests
end

section
/-! R8: a nibble as a shift and a mask, and the two wide fields as residues of the word. -/

namespace Sys2Proof

variable (w : Word)

theorem nibble_toNat (i : Nat) : (nibble w i).toNat = w.toNat >>> (4 * i) % 16 :=
  BitVec.extractLsb'_toNat ..

/-- The formula of R8, at every `i`: a mask of four ones is a residue modulo 16. -/
theorem nibble_setWidth_eq_shift_and (i : Nat) :
    (nibble w i).setWidth 16 = (w >>> (4 * i)) &&& 0xF := by
  apply BitVec.eq_of_toNat_eq
  calc ((nibble w i).setWidth 16).toNat
      = (nibble w i).toNat := BitVec.toNat_setWidth_of_le (by decide)
    _ = w.toNat >>> (4 * i) % 16 := nibble_toNat w i
    _ = w.toNat >>> (4 * i) &&& 15 := (Nat.and_two_pow_sub_one_eq_mod _ 4).symm
    _ = ((w >>> (4 * i)) &&& 0xF).toNat := by simp

theorem fieldNN_toNat : (fieldNN w).toNat = w.toNat % 256 := BitVec.extractLsb'_toNat ..

theorem fieldNNN_toNat : (fieldNNN w).toNat = w.toNat % 4096 :=
  (BitVec.toNat_setWidth_of_le (by decide)).trans (BitVec.extractLsb'_toNat ..)

/-- Settles O1: `OP`, `X`, `Y` and `N` are nibbles by definition (R91), and the rest is the
formula of R8 and the residues of the two wide fields. -/
theorem nibblesAndFieldsOfAWord : Obligations.NibblesAndFieldsOfAWord := by
  intro w
  exact ⟨fun i _ => nibble_setWidth_eq_shift_and w i, rfl, rfl, rfl, rfl,
    fieldNN_toNat w, fieldNNN_toNat w⟩

end Sys2Proof
end

section
/-! What an instruction that answers a next state did to the state: one inversion of `exec`, from which
the invariant, the parity of `pc` and the access matrix follow. -/

namespace Sys2Proof.Machine

variable {s t : State} {i : Instr}

/-- The next states an instruction `i` can answer from `s`, by the part of the state it writes (R39). Each
state is written as a record update of `s`, so that what it leaves alone holds by `rfl`. Under which
condition an instruction takes which of its cases is what `exec_call`, `exec_drw` and their like say. -/
inductive Effect (s : State) : Instr → State → Prop where
  /-- The Halt or the Fatal sequence, in the stubs and in the instructions with a stopping condition. -/
  | stop {i : Instr} (c : HaltCause) (hc : c ≠ .none) : Effect s i (s.raise c)
  /-- JP. -/
  | jump (nnn : Word) : Effect s (.jp nnn) { s with pc := nnn }
  /-- CALL with a free stack entry. -/
  | push (nnn : Word) (h : s.sp.toNat < 16) : Effect s (.call nnn)
      { s with stack := s.stack.set s.sp.toNat (s.pc + 2) h, sp := s.sp + 1, pc := nnn }
  /-- RET with a stack entry in use. -/
  | pop (j : Fin 16) (h : s.sp.toNat = j.val + 1) :
      Effect s .ret { s with sp := s.sp - 1, pc := s.stack[j] }
  /-- The four skips. -/
  | skip {i : Instr} (taken : Bool) : Effect s i (s.skipWhen taken)
  /-- The register and ALU instructions, and LDM in range. -/
  | regs {i : Instr} (v : Vector Byte 16) (h : ∀ r : Reg, v[r] ≠ s.reg r → mayWriteReg i r = true) :
      Effect s i { s with regs := v, pc := s.pc + 2 }
  /-- ISET, IADD and IFONT. -/
  | index {i : Instr} (v : Word) (h : (∃ nnn, i = .iset nnn) ∨ (∃ x, i = .iadd x) ∨ ∃ x, i = .ifont x) :
      Effect s i { s with index := v, pc := s.pc + 2 }
  /-- STM in range. -/
  | store (x : Reg) (h : s.index.toNat + x.val ≤ 0xFFF) :
      Effect s (.stm x) { s with mem := (s.storeRegs (x.val + 1)).mem, pc := s.pc + 2 }
  /-- DRW in range. -/
  | draw (x y : Reg) (n : Nat) : Effect s (.drw x y n)
      { s with regs := ((s.setReg flagReg 0x00).drawRows (s.reg x).toNat (s.reg y).toNat n).regs,
               fb := ((s.setReg flagReg 0x00).drawRows (s.reg x).toNat (s.reg y).toNat n).fb,
               pc := s.pc + 2 }

/-! ### Writes of registers, as effects -/

theorem State.eq_of_reg_setReg_ne {x r : Reg} {v : Byte} (h : (s.setReg x v).reg r ≠ s.reg r) : r = x := by
  by_contra hne
  exact h (by rw [State.reg_setReg, if_neg hne])

theorem Effect.setReg {x : Reg} (hx : mayWriteReg i x = true) (v : Byte) :
    Effect s i (s.setReg x v).advance :=
  .regs _ fun _ hr => State.eq_of_reg_setReg_ne hr ▸ hx

theorem Effect.setReg_setReg {x y : Reg} (hx : mayWriteReg i x = true) (hy : mayWriteReg i y = true)
    (v w : Byte) : Effect s i ((s.setReg x v).setReg y w).advance :=
  .regs _ fun r hr => by
    have hr' : ((s.setReg x v).setReg y w).reg r ≠ s.reg r := hr
    by_cases hry : r = y
    · exact hry ▸ hy
    · have hrx : (s.setReg x v).reg r ≠ s.reg r := by
        rwa [State.reg_setReg _ y, if_neg hry] at hr'
      exact State.eq_of_reg_setReg_ne hrx ▸ hx

theorem Effect.loadRegs (x : Reg) : Effect s (.ldm x) (s.loadRegs (x.val + 1)).advance := by
  rw [State.loadRegs_advance_eq]
  refine .regs _ fun r hr => ?_
  by_contra hw
  have hxr : ¬ r.val < x.val + 1 := by
    intro hlt
    exact hw (by simpa [mayWriteReg, setsFlag] using Fin.le_def.mpr (Nat.le_of_lt_succ hlt))
  exact hr ((State.loadRegs_reg (by omega) r).trans (if_neg hxr))

/-! ### The inversion -/

/-- Every instruction in every state: a next state with one of the effects, or the model's fault of CALL
and RET, which needs an `sp` above 16 (log entry 3). -/
theorem exec_effect_or_fault (i : Instr) (s : State) :
    (∃ t, exec i s = .next t ∧ Effect s i t) ∨
    (s.sp.toNat > 16 ∧ exec i s = .fault .noSuchStackEntry) := by
  cases i with
  | ret =>
    obtain ⟨j, hj, he⟩ | ⟨-, he⟩ | hfault := exec_ret s
    · exact .inl ⟨_, he, .pop j hj⟩
    · exact .inl ⟨_, he, .stop _ (by decide)⟩
    · exact .inr hfault
  | call nnn =>
    obtain ⟨hsp, he⟩ | ⟨-, he⟩ | hfault := exec_call nnn s
    · exact .inl ⟨_, he, .push nnn hsp⟩
    · exact .inl ⟨_, he, .stop _ (by decide)⟩
    · exact .inr hfault
  | jp nnn => exact .inl ⟨_, rfl, .jump nnn⟩
  | sei | snei | ser | sner => exact .inl ⟨_, rfl, .skip _⟩
  | movi x | addi x | mov x | or x | and x | xor x =>
    exact .inl ⟨_, rfl, .setReg (x := x) (by simp [mayWriteReg]) _⟩
  | add x | subr x =>
    exact .inl ⟨_, rfl, .setReg_setReg (x := x) (by simp [mayWriteReg]) (by simp [mayWriteReg, setsFlag]) _ _⟩
  | shr x | shl x =>
    exact .inl ⟨_, rfl, .setReg_setReg (y := x) (by simp [mayWriteReg, setsFlag]) (by simp [mayWriteReg]) _ _⟩
  | iset nnn => exact .inl ⟨_, rfl, .index _ (.inl ⟨nnn, rfl⟩)⟩
  | iadd x => exact .inl ⟨_, rfl, .index _ (.inr (.inl ⟨x, rfl⟩))⟩
  | ifont x => exact .inl ⟨_, rfl, .index _ (.inr (.inr ⟨x, rfl⟩))⟩
  | stm x =>
    obtain ⟨hr, he⟩ | ⟨-, he⟩ := exec_stm x s
    · exact .inl ⟨_, he, State.storeRegs_advance_eq (s := s) (x.val + 1) ▸ .store x hr⟩
    · exact .inl ⟨_, he, .stop _ (by decide)⟩
  | ldm x =>
    obtain ⟨-, he⟩ | ⟨-, he⟩ := exec_ldm x s
    · exact .inl ⟨_, he, .loadRegs x⟩
    · exact .inl ⟨_, he, .stop _ (by decide)⟩
  | drw x y n =>
    obtain ⟨-, he⟩ | ⟨-, -, he⟩ := exec_drw x y n s
    · exact .inl ⟨_, he, State.drawRows_advance_eq (s := s) _ _ _ _ ▸ .draw x y n⟩
    · exact .inl ⟨_, he, .stop _ (by decide)⟩
  | skp | sknp | gdt | wkey | sdt | sst | bcd =>
    exact .inl ⟨_, rfl, .stop .unimplementedInstruction (by decide)⟩

theorem effect_of_exec_eq_next (h : exec i s = .next t) : Effect s i t := by
  obtain ⟨u, hu, e⟩ | ⟨-, hf⟩ := exec_effect_or_fault i s
  · cases hu.symm.trans h
    exact e
  · cases hf.symm.trans h

theorem exists_effect_of_sp_le (i : Instr) (h : s.sp.toNat ≤ 16) :
    ∃ t, exec i s = .next t ∧ Effect s i t :=
  (exec_effect_or_fault i s).resolve_right fun ⟨hsp, _⟩ => by omega

end Sys2Proof.Machine
end

section
/-! The invariant: it holds after reset, and every effect and every other end of a cycle keeps it. -/

namespace Sys2Proof.Machine

variable {s t : State} {i : Instr}

theorem State.Inv.sp_le (h : s.Inv) : s.sp.toNat ≤ 16 := by
  obtain ⟨-, -, -, hsp, -⟩ := h
  exact hsp

/-- Of the stack, the invariant only asks that `sp` is at most 16 (R29). -/
theorem State.Inv.setStack (h : s.Inv) (k : Vector Word 16) {n : BitVec 8} (hn : n.toNat ≤ stackDepth)
    (p : Word) : State.Inv { s with stack := k, sp := n, pc := p } := by
  obtain ⟨hm, hf, htv, -, hrest⟩ := h
  exact ⟨hm, hf, htv, hn, hrest⟩

theorem sp_add_one_toNat {n : BitVec 8} (h : n.toNat < 16) : (n + 1).toNat = n.toNat + 1 := by
  bv_omega

theorem sp_sub_one_toNat {n : BitVec 8} {j : Nat} (h : n.toNat = j + 1) : (n - 1).toNat = j := by
  bv_omega

theorem Effect.inv (e : Effect s i t) (h : s.Inv) : t.Inv := by
  cases e with
  | stop c hc => exact h.raise hc
  | push nnn hsp =>
    exact h.setStack _ (sp_add_one_toNat hsp ▸ hsp) _
  | pop j hj =>
    exact h.setStack _ (sp_sub_one_toNat hj ▸ j.isLt.le) _
  | skip taken => exact h.skipWhen taken
  | store x hr =>
    rw [← State.storeRegs_advance_eq]
    exact (h.storeRegs (by simp only [memSize]; omega)).advance
  | draw x y n =>
    rw [← State.drawRows_advance_eq]
    exact ((h.setReg flagReg 0x00).drawRows _ _ n).advance
  | jump | regs | index => exact h.of_same rfl rfl rfl rfl rfl rfl

/-- Settles O41: `sp` at most 16 rules the model's fault out, and each way a cycle can go keeps the
invariant. -/
theorem stepKeepsTheInvariant : Obligations.StepKeepsTheInvariant := by
  intro s h
  obtain ⟨-, he⟩ | ⟨-, -, -, he⟩ | ⟨-, -, -, he⟩ | ⟨i, -, -, -, he⟩ := step_cases s
  · exact ⟨s, he, h⟩
  · exact ⟨_, he, h.raise (by decide)⟩
  · exact ⟨_, he, h.raise (by decide)⟩
  · have hsp : s.sp.toNat ≤ 16 := h.2.2.2.1
    obtain ⟨t, ht, e⟩ := exists_effect_of_sp_le i hsp
    exact ⟨t, he.trans ht, e.inv h⟩

theorem State.resetWith_inv {c : Config} (hc : c.wf = true) : (State.resetWith c).Inv :=
  ⟨rfl, rfl, rfl, Nat.zero_le _, rfl, hc⟩

/-- Settles O42: `State.reset` is the reset state of the default parameters. -/
theorem resetMeetsTheInvariant : Obligations.ResetMeetsTheInvariant :=
  ⟨State.resetWith_inv (by decide), fun _ hc => State.resetWith_inv hc⟩

end Sys2Proof.Machine
end

section
/-! The parity of `pc` (R27): only JP, CALL and RET set `pc` to another value than it had plus 0, 2 or 4. -/

namespace Sys2Proof.Machine

variable {s t : State} {i : Instr}

theorem even_add_two {w : Word} (h : w.toNat % 2 = 0) : (w + 2).toNat % 2 = 0 := by
  bv_omega

theorem even_add_four {w : Word} (h : w.toNat % 2 = 0) : (w + 4).toNat % 2 = 0 := by
  bv_omega

theorem State.EvenPc.of_same_stack (h : s.EvenPc) (hstack : t.stack = s.stack) (hsp : t.sp = s.sp)
    (hpc : t.pc.toNat % 2 = 0) : t.EvenPc := by
  refine ⟨hpc, fun k hk => ?_⟩
  simpa [hstack] using h.2 k (hsp ▸ hk)

theorem State.EvenPc.raise (h : s.EvenPc) (c : HaltCause) : (s.raise c).EvenPc := by
  refine h.of_same_stack rfl rfl ?_
  rw [State.raise_pc]
  split
  · exact h.1
  · exact even_add_two h.1

theorem State.EvenPc.skipWhen (h : s.EvenPc) (taken : Bool) : (s.skipWhen taken).EvenPc := by
  refine h.of_same_stack rfl rfl ?_
  rw [State.skipWhen_pc]
  split
  · exact even_add_four h.1
  · exact even_add_two h.1

/-- A CALL to an even address pushes the even `pc + 2`. -/
theorem State.EvenPc.push (h : s.EvenPc) {nnn : Word} (hnnn : nnn.toNat % 2 = 0) (hsp : s.sp.toNat < 16) :
    State.EvenPc
      { s with stack := s.stack.set s.sp.toNat (s.pc + 2) hsp, sp := s.sp + 1, pc := nnn } := by
  refine ⟨hnnn, fun k hk => ?_⟩
  have hk' : k.val < s.sp.toNat + 1 := sp_add_one_toNat hsp ▸ hk
  simp only [Fin.getElem_fin, Vector.getElem_set]
  split
  · exact even_add_two h.1
  · exact h.2 k (by omega)

/-- RET jumps to an entry in use and keeps the entries below it. -/
theorem State.EvenPc.pop (h : s.EvenPc) {j : Fin 16} (hj : s.sp.toNat = j.val + 1) :
    State.EvenPc { s with sp := s.sp - 1, pc := s.stack[j] } := by
  refine ⟨h.2 j (by omega), fun k hk => h.2 k ?_⟩
  have hk' : k.val < j.val := sp_sub_one_toNat hj ▸ hk
  omega

theorem Effect.evenPc (e : Effect s i t) (h : s.EvenPc)
    (htarget : ∀ nnn, i = .jp nnn ∨ i = .call nnn → nnn.toNat % 2 = 0) : t.EvenPc := by
  cases e with
  | stop c => exact h.raise c
  | jump nnn => exact h.of_same_stack rfl rfl (htarget nnn (.inl rfl))
  | push nnn hsp => exact h.push (htarget nnn (.inr rfl)) hsp
  | pop j hj => exact h.pop hj
  | skip taken => exact h.skipWhen taken
  | regs | index | store | draw => exact h.of_same_stack rfl rfl (even_add_two h.1)

/-- Settles O20, by the ways a cycle can go; the invariant is not needed. -/
theorem pcStaysEven : Obligations.PcStaysEven := by
  intro s t _ h htarget hstep
  obtain ⟨-, he⟩ | ⟨-, -, -, he⟩ | ⟨-, -, -, he⟩ | ⟨i, -, -, hi, he⟩ := step_cases s
  · cases he.symm.trans hstep
    exact h
  · cases he.symm.trans hstep
    exact h.raise _
  · cases he.symm.trans hstep
    exact h.raise _
  · refine (effect_of_exec_eq_next (he.symm.trans hstep)).evenPc h fun nnn hnnn => htarget nnn ?_
    simpa [hi] using hnnn

end Sys2Proof.Machine
end

section
/-! The access matrix (R39), one lemma per column: the effects that write the column belong to the
instructions the matrix names, and every other effect leaves it as it is. -/

namespace Sys2Proof.Machine

variable {s t : State} {i : Instr}

theorem Effect.mayWriteReg_of_reg_ne (e : Effect s i t) {r : Reg} (h : t.reg r ≠ s.reg r) :
    mayWriteReg i r = true := by
  cases e with
  | regs v hv => exact hv r h
  | draw x y n =>
    by_contra hw
    have hr : r ≠ flagReg := fun hr => hw (by simp [hr, mayWriteReg, setsFlag])
    refine h ((State.drawRows_reg (s := s.setReg flagReg 0x00) hr _ _ n).trans ?_)
    rw [State.reg_setReg, if_neg hr]
  | stop | jump | push | pop | skip | index | store => exact absurd rfl h

theorem Effect.of_index_ne (e : Effect s i t) (h : t.index ≠ s.index) :
    (∃ nnn, i = .iset nnn) ∨ (∃ x, i = .iadd x) ∨ ∃ x, i = .ifont x := by
  cases e with
  | index v hi => exact hi
  | stop | jump | push | pop | skip | regs | store | draw => exact absurd rfl h

theorem Effect.of_mem_ne (e : Effect s i t) (h : t.mem ≠ s.mem) : ∃ x, i = .stm x := by
  cases e with
  | store x => exact ⟨x, rfl⟩
  | stop | jump | push | pop | skip | regs | index | draw => exact absurd rfl h

theorem Effect.of_fb_ne (e : Effect s i t) (h : t.fb ≠ s.fb) : ∃ x y n, i = .drw x y n := by
  cases e with
  | draw x y n => exact ⟨x, y, n, rfl⟩
  | stop | jump | push | pop | skip | regs | index | store => exact absurd rfl h

theorem Effect.of_stack_ne (e : Effect s i t) (h : t.stack ≠ s.stack) : ∃ nnn, i = .call nnn := by
  cases e with
  | push nnn => exact ⟨nnn, rfl⟩
  | stop | jump | pop | skip | regs | index | store | draw => exact absurd rfl h

theorem Effect.of_sp_ne (e : Effect s i t) (h : t.sp ≠ s.sp) : i = .ret ∨ ∃ nnn, i = .call nnn := by
  cases e with
  | push nnn => exact .inr ⟨nnn, rfl⟩
  | pop => exact .inl rfl
  | stop | jump | skip | regs | index | store | draw => exact absurd rfl h

/-- The columns that no instruction writes. -/
theorem Effect.inputs_eq (e : Effect s i t) :
    t.delayTimer = s.delayTimer ∧ t.soundTimer = s.soundTimer ∧ t.keys = s.keys ∧
      t.config = s.config := by
  cases e <;> exact ⟨rfl, rfl, rfl, rfl⟩

/-- Settles O40, column by column of the access matrix. -/
theorem instructionsWriteOnlyTheirState : Obligations.InstructionsWriteOnlyTheirState := by
  intro i s t h
  have e := effect_of_exec_eq_next h
  exact ⟨fun _ => e.mayWriteReg_of_reg_ne, e.of_index_ne, e.of_mem_ne, e.of_fb_ne, e.of_stack_ne,
    e.of_sp_ne, e.inputs_eq⟩

end Sys2Proof.Machine
end

section
/-! The flag (R24): the values each of the five side-effect writes can leave in `VF`. -/

namespace Sys2Proof.Machine

variable {s t : State}

theorem flagWhen_eq (P : Prop) [Decidable P] :
    (if P then 0x01 else 0x00 : Byte) = 0x00 ∨ (if P then 0x01 else 0x00 : Byte) = 0x01 := by
  split
  · exact .inr rfl
  · exact .inl rfl

theorem carryOf_eq (a b : Byte) : carryOf a b = 0x00 ∨ carryOf a b = 0x01 := flagWhen_eq _

theorem borrowOf_eq (a b : Byte) : borrowOf a b = 0x00 ∨ borrowOf a b = 0x01 := flagWhen_eq _

theorem byte_eq_of_toNat_lt_two {v : Byte} (h : v.toNat < 2) : v = 0x00 ∨ v = 0x01 := by
  bv_omega

theorem shiftedOutRight_eq (v : Byte) : shiftedOutRight v = 0x00 ∨ shiftedOutRight v = 0x01 := by
  have h : (shiftedOutRight v).toNat = v.toNat % 2 := by
    rw [shiftedOutRight, BitVec.toNat_and]
    exact Nat.and_one_is_mod _
  exact byte_eq_of_toNat_lt_two (by omega)

theorem shiftedOutLeft_eq (v : Byte) : shiftedOutLeft v = 0x00 ∨ shiftedOutLeft v = 0x01 := by
  have h : (shiftedOutLeft v).toNat = v.toNat / 128 := by
    rw [shiftedOutLeft, BitVec.toNat_ushiftRight, Nat.shiftRight_eq_div_pow]
  exact byte_eq_of_toNat_lt_two (by omega)

/-- SHR with `X = 15` shifts the bit it has just put in `VF`: nothing is left (R168). -/
theorem shiftedRight_shiftedOutRight (v : Byte) : shiftedRight (shiftedOutRight v) = 0x00 := by
  obtain h | h := shiftedOutRight_eq v <;> rw [h] <;> decide

/-- SHL with `X = 15` shifts the bit it has just put in `VF` (R169). -/
theorem shiftedLeft_shiftedOutLeft (v : Byte) :
    shiftedLeft (shiftedOutLeft v) = 0x00 ∨ shiftedLeft (shiftedOutLeft v) = 0x02 := by
  obtain h | h := shiftedOutLeft_eq v
  · exact .inl (by rw [h]; decide)
  · exact .inr (by rw [h]; decide)

/-- A shift of `V[X]` after the moved-out bit `b` is written to `VF`: `VF` keeps `b`, unless `X = 15`. -/
theorem State.reg_flagReg_setReg_flagReg (x : Reg) (b : Byte) (f : Byte → Byte) :
    ((s.setReg flagReg b).setReg x (f ((s.setReg flagReg b).reg x))).reg flagReg =
      if x = flagReg then f b else b := by
  rw [State.reg_setReg]
  by_cases hx : x = flagReg
  · rw [if_pos hx.symm, if_pos hx, hx, State.reg_setReg_self]
  · rw [if_neg (Ne.symm hx), if_neg hx, State.reg_setReg_self]

theorem State.flag_drawRows_setReg (x0 y0 n : Nat) :
    ((s.setReg flagReg 0x00).drawRows x0 y0 n).reg flagReg = 0x00 ∨
    ((s.setReg flagReg 0x00).drawRows x0 y0 n).reg flagReg = 0x01 := by
  rw [State.drawRows_flag, State.reg_setReg_self]
  exact flagWhen_eq _

theorem flag_of_exec_shr {x y : Reg} (h : exec (.shr x y) s = .next t) :
    t.reg flagReg = 0x00 ∨ t.reg flagReg = 0x01 := by
  cases h
  rw [State.reg_advance, State.reg_flagReg_setReg_flagReg]
  split
  · exact .inl (shiftedRight_shiftedOutRight _)
  · exact shiftedOutRight_eq _

theorem flag_of_exec_shl {x y : Reg} (h : exec (.shl x y) s = .next t) :
    t.reg flagReg = 0x00 ∨ (t.reg flagReg = 0x01 ∧ x ≠ flagReg) ∨ (t.reg flagReg = 0x02 ∧ x = flagReg) := by
  cases h
  rw [State.reg_advance, State.reg_flagReg_setReg_flagReg]
  split
  · next hx => exact (shiftedLeft_shiftedOutLeft _).imp_right fun h2 => .inr ⟨h2, hx⟩
  · next hx => exact (shiftedOutLeft_eq _).imp_right fun h1 => .inl ⟨h1, hx⟩

theorem flag_of_exec_drw {x y : Reg} {n : Nat} (h : exec (.drw x y n) s = .next t)
    (hrun : t.halted = false) : t.reg flagReg = 0x00 ∨ t.reg flagReg = 0x01 := by
  obtain ⟨-, he⟩ | ⟨-, -, he⟩ := exec_drw x y n s
  · cases he.symm.trans h
    exact State.flag_drawRows_setReg ..
  · cases he.symm.trans h
    cases hrun

/-- Settles O28, by the five instructions that write `VF` as a side effect. -/
theorem flagIsZeroOrOneAfterASideEffect : Obligations.FlagIsZeroOrOneAfterASideEffect := by
  intro i s t hi h _ hrun
  have of_bit (hne : ∀ y, i ≠ .shl 15 y) (hbit : t.reg 15 = 0x00 ∨ t.reg 15 = 0x01) :
      t.reg 15 = 0x00 ∨ (t.reg 15 = 0x01 ∧ ∀ y, i ≠ .shl 15 y) ∨
        (t.reg 15 = 0x02 ∧ ∃ y, i = .shl 15 y) :=
    hbit.imp_right fun h1 => .inl ⟨h1, hne⟩
  cases i with
  | add x y =>
    cases h
    exact of_bit nofun (by rw [State.reg_advance, State.reg_setReg_self]; exact carryOf_eq _ _)
  | subr x y =>
    cases h
    exact of_bit nofun (by rw [State.reg_advance, State.reg_setReg_self]; exact borrowOf_eq _ _)
  | shr x y => exact of_bit nofun (flag_of_exec_shr h)
  | shl x y =>
    obtain h0 | ⟨h1, hx⟩ | ⟨h2, rfl⟩ := flag_of_exec_shl h
    · exact .inl h0
    · exact .inr (.inl ⟨h1, fun y' he => hx (Instr.shl.inj he).1⟩)
    · exact .inr (.inr ⟨h2, y, rfl⟩)
  | drw x y n => exact of_bit nofun (flag_of_exec_drw h hrun)
  | _ => cases hi

end Sys2Proof.Machine
end

section
/-! The stack pointer above 16 (log entry 3), and the state after `construct` (R37, R250). -/

namespace Sys2Proof.Machine

/-- Settles O16: the other cases of CALL and RET need an `sp` of at most 16. -/
theorem stackPointerAboveSixteenFaults : Obligations.StackPointerAboveSixteenFaults := by
  intro s nnn h
  constructor
  · obtain ⟨hsp, -⟩ | ⟨hsp, -⟩ | ⟨-, he⟩ := exec_call nnn s
    · omega
    · omega
    · exact he
  · obtain ⟨j, hsp, -⟩ | ⟨hsp, -⟩ | ⟨-, he⟩ := exec_ret s
    · omega
    · omega
    · exact he

variable {c : Config} {image : List Byte}

theorem construct_eq (h : image.length ≤ maxProgLen) :
    construct c image = .next ((State.resetWith c).loadImage progBase image) :=
  if_pos h

theorem initialByte_font (k : Fin 80) : initialByte c k.val = c.font[k] := dif_pos k.isLt

theorem initialByte_of_ge {a : Nat} (h : fontSize ≤ a) : initialByte c a = 0x00 := dif_neg h.not_gt

section Loaded

variable (h : image.length ≤ maxProgLen)
include h

/-- Memory after `construct`: the image from `0x200` on, and the reset contents elsewhere (R21). -/
theorem resetWith_loadImage_load (a : Nat) :
    ((State.resetWith c).loadImage progBase image).load a =
      if ha : progBase ≤ a ∧ a < progBase + image.length then image[a - progBase]'(by omega)
      else initialByte c a :=
  State.loadImage_load rfl (Nat.add_le_add_left h progBase) a

theorem resetWith_loadImage_load_outside {a : Nat} (ha : a < progBase ∨ progBase + image.length ≤ a) :
    ((State.resetWith c).loadImage progBase image).load a = initialByte c a := by
  rw [resetWith_loadImage_load h, dif_neg (by omega)]

theorem resetWith_loadImage_load_image {k : Nat} (hk : k < image.length) :
    ((State.resetWith c).loadImage progBase image).load (progBase + k) = image[k] := by
  rw [resetWith_loadImage_load h, dif_pos ⟨Nat.le_add_right .., Nat.add_lt_add_left hk _⟩]
  simp only [Nat.add_sub_cancel_left]

end Loaded

/-- Settles O45: memory by the laws of loading an image, all else because loading changes memory only. -/
theorem constructGivesTheResetValues : Obligations.ConstructGivesTheResetValues := by
  intro c image h
  refine ⟨_, construct_eq h, fun k => ?font, fun a hlo hhi => ?zerosBelow,
    fun k hk => resetWith_loadImage_load_image h hk, fun a hlo _ => ?zerosAbove, ?rest⟩
  case font =>
    have hk := k.isLt
    rw [resetWith_loadImage_load_outside h (.inl (by simp only [progBase]; omega)), initialByte_font]
  case zerosBelow =>
    rw [resetWith_loadImage_load_outside h (.inl hhi), initialByte_of_ge hlo]
  case zerosAbove =>
    rw [resetWith_loadImage_load_outside h (.inr hlo), initialByte_of_ge (by simp only [fontSize]; omega)]
  case rest =>
    rw [State.loadImage_frame]
    exact ⟨fun r => Vector.getElem_replicate r.isLt, rfl, rfl, fun j => Vector.getElem_replicate j.isLt,
      rfl, rfl, rfl, fun j => Vector.getElem_replicate j.isLt, fun _ _ _ _ => rfl, rfl, rfl, rfl⟩

end Sys2Proof.Machine
end

section
/-! The word in memory that the next cycle fetches: what a step does with it, and what puts it there, an
STM over the next word (R72) or the model's `withFetchWord` (log entry 6). -/

namespace Sys2Proof.Machine

variable {s : State}

/-! ### The word at `pc` -/

theorem State.nextInstr_of_wordAt {w : Word} (hw : s.wordAt s.pc.toNat = w) (hrun : s.halted = false)
    (hpc : s.pc.toNat ≤ 0xFFE) : s.nextInstr = decodeWord w := by
  rw [State.nextInstr, if_pos ⟨hrun, hpc⟩, hw]

theorem step_of_nextInstr {i : Instr} (h : s.nextInstr = some i) : step s = exec i s := by
  obtain ⟨hhalt, -⟩ | ⟨-, -, hnone, -⟩ | ⟨-, -, hnone, -⟩ | ⟨j, -, -, hj, he⟩ := step_cases s
  · simp [State.nextInstr, hhalt] at h
  · cases hnone.symm.trans h
  · cases hnone.symm.trans h
  · cases hj.symm.trans h
    exact he

/-! ### A word stored over the next one -/

theorem State.storeRegs_load_dataAddr (h : Memory.wf s.config s.mem = true) {x i : Reg}
    (hr : s.index.toNat + x.val ≤ 0xFFF) (hi : i ≤ x) :
    (s.storeRegs (x.val + 1)).load (s.dataAddr i.val) = s.reg i := by
  have hix : i.val ≤ x.val := hi
  rw [State.storeRegs_load h (by simp only [memSize]; omega), State.dataAddr_eq, if_pos (by omega),
    Nat.add_sub_cancel_left, regAt_val]

theorem exec_stm_of_inRange {x : Reg} (hr : s.index.toNat + x.val ≤ 0xFFF) :
    exec (.stm x) s = .next (s.storeRegs (x.val + 1)).advance := by
  obtain ⟨-, he⟩ | ⟨hout, -⟩ := exec_stm x s
  · exact he
  · omega

/-- Settles O33: the next fetch is in range because the word's second byte was, and it reads the two
stored bytes. -/
theorem storedCodeRunsInTheNextCycle : Obligations.StoredCodeRunsInTheNextCycle := by
  intro s x i j w k hinv hrun hr hi hj hhi hlo hw hk
  refine ⟨_, exec_stm_of_inRange hr, step_of_nextInstr ?_⟩
  have hjx : j.val ≤ x.val := hj
  have hlast : s.pc.toNat + 3 ≤ 0xFFF := by
    rw [← hlo, State.dataAddr_eq]
    omega
  have hpc : (s.storeRegs (x.val + 1)).advance.pc.toNat = s.pc.toNat + 2 := by
    rw [State.storeRegs_advance_eq]
    bv_omega
  have hword : (s.storeRegs (x.val + 1)).advance.wordAt (s.pc.toNat + 2) = w := by
    apply composeWord_of_toNat
    rw [State.load_advance, State.load_advance, ← hhi, State.storeRegs_load_dataAddr hinv.1 hr hi,
      hhi, ← hlo, State.storeRegs_load_dataAddr hinv.1 hr hj, hw]
  rw [State.nextInstr_of_wordAt (hpc ▸ hword) (by rwa [State.storeRegs_advance_eq]) (by omega), hk]

/-! ### A word placed by `withFetchWord` -/

theorem composeWord_highByte_lowByte (w : Word) : composeWord (highByte w) (lowByte w) = w := by
  apply composeWord_of_toNat
  have hhi : (highByte w).toNat = w.toNat / 256 := by
    rw [highByte, BitVec.extractLsb'_toNat, Nat.shiftRight_eq_div_pow]
    omega
  have hlo : (lowByte w).toNat = w.toNat % 256 := BitVec.extractLsb'_toNat ..
  omega

theorem State.store_store_wordAt (h : Memory.wf s.config s.mem = true) {a : Nat} (ha : a < memSize)
    (w : Word) : ((s.store a (highByte w)).store (a + 1) (lowByte w)).wordAt a = w := by
  have hread := State.load_store (s := s.store a (highByte w)) (State.store_wf h ha _)
  rw [State.wordAt, hread, hread, State.load_store h, if_neg (by omega), if_pos rfl, if_pos rfl,
    composeWord_highByte_lowByte]

theorem decodeTableWord_eq (nbits w : Nat) :
    decodeTableWord nbits w = decodeWord (tableWord nbits w) := by
  rw [decodeTableWord, decode, composeWord_highByte_lowByte]
  cases decodeWord (tableWord nbits w) <;> rfl

/-- `withFetchWord` stores the word at `pc` of a state that runs, fetches inside memory, and has the
memory of `s`. -/
theorem State.exists_withFetchWord_eq (s : State) (nbits w : Nat) :
    ∃ p : State, p.halted = false ∧ p.pc.toNat ≤ 0xFFE ∧ p.config = s.config ∧ p.mem = s.mem ∧
      s.withFetchWord nbits w = (p.store p.pc.toNat (highByte (tableWord nbits w))).store
        (p.pc.toNat + 1) (lowByte (tableWord nbits w)) := by
  refine ⟨_, ?running, ?inMemory, ?config, ?mem, rfl⟩
  case running => split_ifs <;> simp [*]
  case inMemory => split_ifs <;> simp [*]
  case config => split_ifs <;> rfl
  case mem => split_ifs <;> rfl

/-- Settles O48: the word read back at `pc` is the word placed. -/
theorem placedWordRunsNext : Obligations.PlacedWordRunsNext := by
  intro s w i hwf hdec
  obtain ⟨p, hrun, hpc, hconfig, hmem, heq⟩ := s.exists_withFetchWord_eq 16 w
  have hword := State.store_store_wordAt (s := p) (by rwa [hconfig, hmem])
    (Nat.lt_of_le_of_lt hpc (by decide)) (tableWord 16 w)
  rw [heq]
  apply step_of_nextInstr
  rw [State.nextInstr_of_wordAt hword hrun hpc, ← decodeTableWord_eq, hdec]

end Sys2Proof.Machine
end

section
/-! The host's transactions: each that answers keeps the invariant and the parameters, so every
interleaving of them does. -/

namespace Sys2Proof.Machine

variable {s t : State}

theorem config_eq_of_step (h : step s = .next t) : t.config = s.config := by
  obtain ⟨-, he⟩ | ⟨-, -, -, he⟩ | ⟨-, -, -, he⟩ | ⟨i, -, -, -, he⟩ := step_cases s
  · cases he.symm.trans h
    rfl
  · cases he.symm.trans h
    rfl
  · cases he.symm.trans h
    rfl
  · obtain ⟨-, -, -, hconfig⟩ := (effect_of_exec_eq_next (he.symm.trans h)).inputs_eq
    exact hconfig

theorem State.Inv.loadImage (h : s.Inv) {a : Nat} {image : List Byte}
    (hfit : a + image.length ≤ memSize) : (s.loadImage a image).Inv := by
  have hwf := State.loadImage_wf h.1 hfit
  rw [State.loadImage_frame]
  exact ⟨hwf, h.2⟩

theorem exists_construct_inv {c : Config} (hc : c.wf = true) {image : List Byte}
    (h : image.length ≤ maxProgLen) :
    ∃ t, construct c image = .next t ∧ t.Inv ∧ t.config = c := by
  refine ⟨_, construct_eq h, (State.resetWith_inv hc).loadImage (Nat.add_le_add_left h progBase), ?_⟩
  rw [State.loadImage_frame]
  rfl

theorem exists_transact_inv (hs : s.Inv) (a : Transaction)
    (hfit : ∀ image, a = .construct image → image.length ≤ maxProgLen) :
    ∃ t, s.transact a = .next t ∧ t.Inv ∧ t.config = s.config := by
  cases a with
  | construct image =>
    obtain ⟨-, -, -, -, -, hc⟩ := hs
    exact exists_construct_inv hc (hfit image rfl)
  | cycle =>
    obtain ⟨t, ht, hinv⟩ := stepKeepsTheInvariant s hs
    exact ⟨t, ht, hinv, config_eq_of_step ht⟩
  | keyWrite k b => exact ⟨_, rfl, hs.of_same rfl rfl rfl rfl rfl rfl, rfl⟩
  | timerWrite which v =>
    cases which <;> exact ⟨_, rfl, hs.of_same rfl rfl rfl rfl rfl rfl, rfl⟩

theorem State.transactAll_cons {a : Transaction} (h : s.transact a = .next t) (as : List Transaction) :
    s.transactAll (a :: as) = t.transactAll as := by
  rw [State.transactAll, h]

/-- Settles O43, by induction on the transactions. -/
theorem transactionsKeepTheInvariant : Obligations.TransactionsKeepTheInvariant := by
  intro s as hs hfit
  induction as generalizing s with
  | nil => exact ⟨s, rfl, hs, rfl⟩
  | cons a rest ih =>
    obtain ⟨t, ht, htinv, htc⟩ := exists_transact_inv hs a fun image ha =>
      hfit image (ha ▸ List.mem_cons_self ..)
    obtain ⟨u, hu, huinv, huc⟩ := ih t htinv fun image hmem => hfit image (List.mem_cons_of_mem a hmem)
    exact ⟨u, (State.transactAll_cons ht rest).trans hu, huinv, huc.trans htc⟩

end Sys2Proof.Machine
end

section
/-! The opcode table as a whole (R95 to R97), and its lookup as a membership: within a bucket every entry
compares the same bits, so the order of a bucket never decides (R97). -/

namespace Sys2Proof

/-! ### The shape of a bucket -/

/-- How many low bits of a word the entries of a bucket compare beside `w[15:12]` (R100 to R104). -/
def comparedLowBits (key : BitVec 4) : Nat :=
  match key.toNat with
  | 0x0 => 12
  | 0x5 | 0x8 | 0x9 => 4
  | 0xE | 0xF => 8
  | _ => 0

theorem comparedLowBits_le (key : BitVec 4) : comparedLowBits key ≤ 12 := by
  unfold comparedLowBits
  split <;> decide

/-- The mask of `w[15:12]` and the `k` low bits. -/
def maskOfLowBits (k : Nat) : Word := 0xF000 ||| BitVec.ofNat 16 (2 ^ k - 1)

/-- What the entries of the bucket `key` have in common. -/
structure BucketShape (key : BitVec 4) (entries : List Entry) : Prop where
  /-- One mask, the bits that the bucket compares. -/
  mask : ∀ e ∈ entries, e.mask = maskOfLowBits (comparedLowBits key)
  /-- A value has no bit outside the mask. -/
  value : ∀ e ∈ entries, e.value &&& maskOfLowBits (comparedLowBits key) = e.value
  /-- A value is a word of the bucket. -/
  opcode : ∀ e ∈ entries, fieldOP e.value = key
  /-- No value stands in the bucket twice. -/
  distinct : entries.Pairwise fun e f => e.value ≠ f.value

variable {key : BitVec 4} {entries : List Entry} {e f : Entry} {w : Word}

theorem bucketShape (h : bucket key = some entries) : BucketShape key entries := by
  have hmask : ∀ key, ∀ es ∈ bucket key, ∀ e ∈ es,
      e.mask = maskOfLowBits (comparedLowBits key) := by decide
  have hvalue : ∀ key, ∀ es ∈ bucket key, ∀ e ∈ es,
      e.value &&& maskOfLowBits (comparedLowBits key) = e.value := by decide
  have hopcode : ∀ key, ∀ es ∈ bucket key, ∀ e ∈ es, fieldOP e.value = key := by decide
  have hdistinct : ∀ key, ∀ es ∈ bucket key, es.Pairwise fun e f => e.value ≠ f.value := by decide
  exact ⟨hmask key entries h, hvalue key entries h, hopcode key entries h, hdistinct key entries h⟩

theorem or_and_cancel_left (a b : Word) : (a ||| b) &&& a = a := by
  ext i hi
  simp +contextual

theorem maskOfLowBits_and_F000 (k : Nat) : maskOfLowBits k &&& 0xF000 = 0xF000 :=
  or_and_cancel_left ..

theorem Entry.matches_iff : e.Matches w = true ↔ w &&& e.mask = e.value := beq_iff_eq

theorem BucketShape.pairwise_disjoint (hs : BucketShape key entries) :
    entries.Pairwise fun e f => ∀ w, ¬ (e.Matches w = true ∧ f.Matches w = true) := by
  refine hs.distinct.imp_of_mem fun {e f} he hf hne w ⟨hew, hfw⟩ => hne ?_
  rw [Entry.matches_iff, hs.mask e he] at hew
  rw [Entry.matches_iff, hs.mask f hf] at hfw
  exact hew.symm.trans hfw

/-- Settles O6: the entries of a bucket have one mask, and their values differ. -/
theorem tableEntriesAreDisjoint : Obligations.TableEntriesAreDisjoint := by
  intro key entries hb
  have hs := bucketShape hb
  refine ⟨fun e he => ⟨?_, hs.opcode e he⟩, hs.pairwise_disjoint⟩
  rw [hs.mask e he, maskOfLowBits_and_F000]

/-! ### Decoding through a bucket -/

/-- In a list where no two elements meet `p`, the first that does is the one that does. -/
theorem find?_eq_some_of_pairwise {α : Type} {p : α → Bool} {l : List α} {a : α}
    (h : l.Pairwise fun b c => ¬ (p b = true ∧ p c = true)) (ha : a ∈ l) (hp : p a = true) :
    l.find? p = some a := by
  obtain ⟨before, after, rfl⟩ := List.append_of_mem ha
  obtain ⟨-, -, hbefore⟩ := List.pairwise_append.1 h
  refine List.find?_eq_some_iff_append.2 ⟨hp, before, after, rfl, fun b hb => ?_⟩
  rw [Bool.not_eq_true', Bool.eq_false_iff]
  exact fun hpb => hbefore b hb a (List.mem_cons_self ..) ⟨hpb, hp⟩

theorem decodeWord_eq_find? (hb : bucket (fieldOP w) = some entries) :
    decodeWord w = (entries.find? fun e => e.Matches w).map fun e => e.build w := by
  rw [decodeWord, lookup, hb]

theorem decodeWord_eq_none_of_bucket (hb : bucket (fieldOP w) = none) : decodeWord w = none := by
  rw [decodeWord, lookup, hb]
  rfl

theorem decodeWord_eq_none_iff (hb : bucket (fieldOP w) = some entries) :
    decodeWord w = none ↔ ∀ e ∈ entries, ¬ e.Matches w = true := by
  rw [decodeWord_eq_find? hb, Option.map_eq_none_iff, List.find?_eq_none]

theorem decodeWord_of_matches (hb : bucket (fieldOP w) = some entries) (he : e ∈ entries)
    (hm : e.Matches w = true) : decodeWord w = some (e.build w) := by
  have hdisjoint := (bucketShape hb).pairwise_disjoint.imp fun h => h w
  rw [decodeWord_eq_find? hb, find?_eq_some_of_pairwise hdisjoint he hm, Option.map_some]

/-- The entries of all buckets. -/
def opcodeTable : List Entry :=
  (List.finRange 16).flatMap fun key => (bucket (BitVec.ofFin key)).getD []

theorem mem_opcodeTable (hb : bucket key = some entries) (he : e ∈ entries) : e ∈ opcodeTable := by
  refine List.mem_flatMap.2 ⟨key.toFin, List.mem_finRange _, ?_⟩
  have hkey : bucket (BitVec.ofFin key.toFin) = some entries := hb
  rwa [hkey, Option.getD_some]

theorem exists_entry_of_decodeWord {i : Instr} (h : decodeWord w = some i) :
    ∃ e ∈ opcodeTable, e.Matches w = true ∧ e.build w = i := by
  cases hb : bucket (fieldOP w) with
  | none => cases (decodeWord_eq_none_of_bucket hb).symm.trans h
  | some entries =>
    rw [decodeWord_eq_find? hb, Option.map_eq_some_iff] at h
    obtain ⟨e, hfind, hbuild⟩ := h
    have hm := List.find?_some (p := fun e : Entry => e.Matches w) hfind
    exact ⟨e, mem_opcodeTable hb (List.mem_of_find?_eq_some hfind), hm, hbuild⟩

end Sys2Proof
end

section
/-! Decoding and encoding are inverse (R109): an instruction's word has one entry, and an entry's word is
its value OR the bits outside its mask, which are the operand fields. -/

namespace Sys2Proof

/-! ### Decode of encode -/

/-- The rows of `Laws.EncodeRow`, put together. -/
theorem encodeRow (i : Instr) : Laws.EncodeRow.Statement i := by
  open Laws.EncodeRow in
  cases i with
  | ret => exact ret
  | jp nnn => exact jp nnn
  | call nnn => exact call nnn
  | sei x nn => exact sei x nn
  | snei x nn => exact snei x nn
  | ser x y => exact ser x y
  | movi x nn => exact movi x nn
  | addi x nn => exact addi x nn
  | mov x y => exact mov x y
  | or x y => exact Laws.EncodeRow.or x y
  | and x y => exact Laws.EncodeRow.and x y
  | xor x y => exact Laws.EncodeRow.xor x y
  | add x y => exact add x y
  | subr x y => exact subr x y
  | shr x y => exact shr x y
  | shl x y => exact shl x y
  | sner x y => exact sner x y
  | iset nnn => exact iset nnn
  | drw x y n => exact drw x y n
  | skp x => exact skp x
  | sknp x => exact sknp x
  | gdt x => exact gdt x
  | wkey x => exact wkey x
  | sdt x => exact sdt x
  | sst x => exact sst x
  | iadd x => exact iadd x
  | ifont x => exact ifont x
  | bcd x => exact bcd x
  | stm x => exact stm x
  | ldm x => exact ldm x

theorem decodeWord_encode {i : Instr} (h : i.wellFormed = true) : decodeWord (encode i) = some i := by
  obtain ⟨entries, e, hb, he, hm, hbuild⟩ := encodeRow i h
  rw [decodeWord_of_matches hb he hm, hbuild]

/-- Settles O3: the bytes of the word compose to the word, whose bucket has one entry that matches. -/
theorem decodeOfEncodeGivesTheInstruction : Obligations.DecodeOfEncodeGivesTheInstruction := by
  intro i rest hi
  refine ⟨decodeWord_encode hi, ?_⟩
  rw [encodeBytes, List.cons_append, List.cons_append, List.nil_append, decode,
    Machine.composeWord_highByte_lowByte, decodeWord_encode hi]

/-! ### The operand fields, put back in place -/

variable (w : Word)

theorem shiftRight_and_shiftLeft (m : Word) (k : Nat) : ((w >>> k) &&& m) <<< k = w &&& (m <<< k) := by
  ext j hj
  by_cases hk : j < k
  · simp [hk]
  · simp [hk, Nat.add_sub_cancel' (Nat.le_of_not_lt hk), BitVec.getLsbD_eq_getElem hj]

theorem ofNat_nibble_shiftLeft (i : Nat) :
    BitVec.ofNat 16 (nibble w i).toNat <<< (4 * i) = w &&& ((0xF : Word) <<< (4 * i)) := by
  rw [← shiftRight_and_shiftLeft, ← nibble_setWidth_eq_shift_and, BitVec.ofNat_toNat]

theorem placeX_fieldX : placeX (fieldX w) = w &&& 0x0F00 := ofNat_nibble_shiftLeft w 2

theorem placeY_fieldY : placeY (fieldY w) = w &&& 0x00F0 := ofNat_nibble_shiftLeft w 1

theorem ofNat_fieldN : BitVec.ofNat 16 (fieldN w) = w &&& 0x000F :=
  (BitVec.shiftLeft_zero _).symm.trans (ofNat_nibble_shiftLeft w 0)

theorem toNat_and_lowBits {k : Nat} (hk : k ≤ 16) :
    (w &&& BitVec.ofNat 16 (2 ^ k - 1)).toNat = w.toNat % 2 ^ k := by
  have hpow := Nat.pow_le_pow_right (n := 2) (by decide) hk
  rw [BitVec.toNat_and, BitVec.toNat_ofNat, Nat.mod_eq_of_lt (by omega), Nat.and_two_pow_sub_one_eq_mod]

theorem setWidth_fieldNN : (fieldNN w).setWidth 16 = w &&& 0x00FF := by
  apply BitVec.eq_of_toNat_eq
  rw [BitVec.toNat_setWidth_of_le (by decide), fieldNN_toNat]
  exact (toNat_and_lowBits w (k := 8) (by decide)).symm

theorem fieldNNN_eq_and : fieldNNN w = w &&& 0x0FFF :=
  BitVec.eq_of_toNat_eq ((fieldNNN_toNat w).trans (toNat_and_lowBits w (k := 12) (by decide)).symm)

/-! ### Encode of decode -/

/-- R109, "`value OR operand bits`", row by row: a row's operand fields, put in place, are the bits of
the word outside the row's mask. -/
theorem encode_build : ∀ e ∈ opcodeTable, ∀ w,
    encode (e.build w) = e.value ||| (w &&& ~~~e.mask) := by
  simp [opcodeTable, List.finRange_succ, bucket, bucketLow, bucket8, bucketE, bucketF, encode,
    placeX_fieldX, placeY_fieldY, ofNat_fieldN, setWidth_fieldNN, fieldNNN_eq_and, BitVec.or_assoc,
    ← BitVec.and_or_distrib_left]

theorem fieldN_le : fieldN w ≤ 15 := Nat.le_of_lt_succ (nibble w 0).isLt

theorem fieldNNN_le : (fieldNNN w).toNat ≤ 4095 := by
  rw [fieldNNN_toNat]
  omega

/-- Row by row: the two operands that `wellFormed` bounds are read from fields that narrow (R93). -/
theorem wellFormed_build : ∀ e ∈ opcodeTable, ∀ w, (e.build w).wellFormed = true := by
  simp [opcodeTable, List.finRange_succ, bucket, bucketLow, bucket8, bucketE, bucketF,
    Instr.wellFormed, fieldN_le, fieldNNN_le]

theorem encode_build_of_matches {e : Entry} (he : e ∈ opcodeTable) {w : Word} (hm : e.Matches w = true) :
    encode (e.build w) = w := by
  rw [encode_build e he, ← Entry.matches_iff.1 hm, ← BitVec.and_or_distrib_left, BitVec.or_not_self,
    BitVec.and_allOnes]

/-- Settles O4: the matching entry fixes the masked bits, and the operand fields hold the others. -/
theorem encodeOfDecodeGivesTheWord : Obligations.EncodeOfDecodeGivesTheWord := by
  intro w i h
  obtain ⟨e, he, hm, rfl⟩ := exists_entry_of_decodeWord h
  exact ⟨wellFormed_build e he w, encode_build_of_matches he hm⟩

/-- Settles O2, by computing the eleven lookups. -/
theorem wordsOfTheSpecDecode : Obligations.WordsOfTheSpecDecode := by
  unfold Obligations.WordsOfTheSpecDecode
  decide

end Sys2Proof
end

section
/-! The unknown words (R105): within a bucket an entry matches by the residue of its low bits. -/

namespace Sys2Proof

variable {key : BitVec 4} {entries : List Entry} {e : Entry} {v w : Word}

theorem and_F000_eq_of_fieldOP_eq (h : fieldOP v = fieldOP w) : v &&& 0xF000 = w &&& 0xF000 :=
  calc v &&& 0xF000
      = BitVec.ofNat 16 (fieldOP v).toNat <<< (4 * 3) := (ofNat_nibble_shiftLeft v 3).symm
    _ = BitVec.ofNat 16 (fieldOP w).toNat <<< (4 * 3) := by rw [h]
    _ = w &&& 0xF000 := ofNat_nibble_shiftLeft w 3

theorem maskOfLowBits_and_lowBits (k : Nat) :
    maskOfLowBits k &&& BitVec.ofNat 16 (2 ^ k - 1) = BitVec.ofNat 16 (2 ^ k - 1) := by
  rw [maskOfLowBits, BitVec.or_comm, or_and_cancel_left]

theorem and_maskOfLowBits_eq_iff {k : Nat} (hop : fieldOP w = fieldOP v) (hv : v &&& maskOfLowBits k = v)
    (hk : k ≤ 16) : w &&& maskOfLowBits k = v ↔ w.toNat % 2 ^ k = v.toNat % 2 ^ k := by
  rw [← toNat_and_lowBits w hk, ← toNat_and_lowBits v hk, BitVec.toNat_inj]
  constructor
  · intro h
    rw [← h, BitVec.and_assoc, maskOfLowBits_and_lowBits]
  · intro h
    rw [← hv, maskOfLowBits, BitVec.and_or_distrib_left, BitVec.and_or_distrib_left,
      and_F000_eq_of_fieldOP_eq hop, h]

theorem matches_iff_lowBits (hb : bucket (fieldOP w) = some entries) (he : e ∈ entries) :
    e.Matches w = true ↔
      w.toNat % 2 ^ comparedLowBits (fieldOP w) = e.value.toNat % 2 ^ comparedLowBits (fieldOP w) := by
  have hs := bucketShape hb
  have hk := comparedLowBits_le (fieldOP w)
  rw [Entry.matches_iff, hs.mask e he]
  exact and_maskOfLowBits_eq_iff (hs.opcode e he).symm (hs.value e he) (by omega)

theorem decodeWord_eq_none_iff_lowBits : decodeWord w = none ↔
    ∀ entries ∈ bucket (fieldOP w), ∀ e ∈ entries,
      w.toNat % 2 ^ comparedLowBits (fieldOP w) ≠ e.value.toNat % 2 ^ comparedLowBits (fieldOP w) := by
  cases hb : bucket (fieldOP w) with
  | none => simp [decodeWord_eq_none_of_bucket hb]
  | some entries =>
    simp only [decodeWord_eq_none_iff hb, Option.mem_some_iff, forall_eq']
    exact forall₂_congr fun e he => not_congr (matches_iff_lowBits hb he)

theorem fieldOP_toNat (w : Word) : (fieldOP w).toNat = w.toNat / 4096 := by
  rw [fieldOP, nibble_toNat, Nat.shiftRight_eq_div_pow]
  omega

/-- Settles O5, bucket by bucket: no entry's residue is the word's. -/
theorem unknownWordsAreThoseListed : Obligations.UnknownWordsAreThoseListed := by
  intro w
  have hop := fieldOP_toNat w
  rw [decodeWord_eq_none_iff_lowBits, UnknownWord, ← hop]
  generalize fieldOP w = key at *
  obtain ⟨⟨k, hk⟩⟩ := key
  match k, hk, hop with
  | 0x0, _, hop =>
    have hret : w.toNat % 4096 = 0xEE ↔ w = 0x00EE := by
      change 0 = w.toNat / 4096 at hop
      bv_omega
    simp [bucket, bucketLow, comparedLowBits, hret]
  | 0x8, _, _ =>
    simp [bucket, bucket8, comparedLowBits]
    omega
  | 0x5, _, _ | 0x9, _, _ => simp [bucket, bucketLow, comparedLowBits]
  | 0xB, _, _ | 0xC, _, _ => simp [bucket]
  | 0xE, _, _ | 0xF, _, _ => simp [bucket, bucketE, bucketF, comparedLowBits]
  | 0x1, _, _ | 0x2, _, _ | 0x3, _, _ | 0x4, _, _ | 0x6, _, _ | 0x7, _, _ | 0xA, _, _ | 0xD, _, _ =>
    simp [bucket, bucketLow, comparedLowBits, Nat.mod_one]
  | n + 16, hk, _ => omega

end Sys2Proof
end

section
/-! The text of a word determines it (R107, R212): what stands before the first space determines the
table's row, and the digits after it determine the operands. -/

namespace Sys2Proof.Machine

/-! ### Digits -/

theorem hexDigit_inj {a b : Nat} (ha : a < 16) (hb : b < 16) (h : hexDigit a = hexDigit b) : a = b := by
  have hfin : ∀ a b : Fin 16, hexDigit a.val = hexDigit b.val → a = b := by decide
  exact congrArg Fin.val (hfin ⟨a, ha⟩ ⟨b, hb⟩ h)

theorem hexText_inj {d a b : Nat} (ha : a < 16 ^ d) (hb : b < 16 ^ d) (h : hexText d a = hexText d b) :
    a = b := by
  induction d generalizing a b with
  | zero => omega
  | succ d ih =>
    have hlist := congrArg String.toList h
    simp only [hexText, String.toList_append, String.toList_singleton] at hlist
    obtain ⟨hhigh, hlow⟩ := List.append_inj' hlist rfl
    have hdiv := ih (by omega) (by omega) (String.toList_injective hhigh)
    have hmod := hexDigit_inj (by omega) (by omega) (List.singleton_injective hlow)
    omega

theorem hexText_toNat_inj {d k : Nat} (hd : 2 ^ k ≤ 16 ^ d) {a b : BitVec k} :
    hexText d a.toNat = hexText d b.toNat ↔ a = b := by
  refine ⟨fun h => BitVec.eq_of_toNat_eq (hexText_inj ?_ ?_ h), fun h => by rw [h]⟩
  · exact Nat.lt_of_lt_of_le a.isLt hd
  · exact Nat.lt_of_lt_of_le b.isLt hd

theorem regText_append_inj {x y : Reg} {s t : String} :
    regText x ++ s = regText y ++ t ↔ x = y ∧ s = t := by
  rw [regText, regText, String.append_assoc, String.append_assoc, String.append_right_inj,
    String.singleton_append_inj]
  exact and_congr_left' ⟨fun h => Fin.ext (hexDigit_inj x.isLt y.isLt h), fun h => by rw [h]⟩

theorem regText_inj {x y : Reg} : regText x = regText y ↔ x = y := by
  simpa using regText_append_inj (s := "") (t := "")

section Lines

variable {m : String} {x x' y y' : Reg}

@[simp] theorem lineXF_inj : lineXF m x = lineXF m x' ↔ x = x' := by
  simp [lineXF, regText_inj]

@[simp] theorem lineXY_inj : lineXY m x y = lineXY m x' y' ↔ x = x' ∧ y = y' := by
  simp [lineXY, String.append_assoc, regText_append_inj, regText_inj]

@[simp] theorem lineXI_inj {nn nn' : Byte} :
    lineXI m x nn = lineXI m x' nn' ↔ x = x' ∧ nn = nn' := by
  simp [lineXI, String.append_assoc, regText_append_inj, hexText_toNat_inj]

theorem lineXYN_inj {n n' : BitVec 4} :
    lineXYN m x y n.toNat = lineXYN m x' y' n'.toNat ↔ x = x' ∧ y = y' ∧ n = n' := by
  simp [lineXYN, String.append_assoc, regText_append_inj, hexText_toNat_inj]

theorem lineA_inj {a b : Word} (ha : a.toNat ≤ 4095) (hb : b.toNat ≤ 4095) :
    lineA m a = lineA m b ↔ a = b := by
  refine ⟨fun h => ?_, fun h => by rw [h]⟩
  have hdigits : hexText 3 a.toNat = hexText 3 b.toNat := by simpa [lineA] using h
  exact BitVec.eq_of_toNat_eq (hexText_inj (by omega) (by omega) hdigits)

end Lines

theorem unknownText_inj {v w : Word} (h : unknownText v = unknownText w) : v = w := by
  simpa [unknownText, hexText_toNat_inj] using h

/-! ### The mnemonic -/

/-- What stands before the first space of a line. -/
def lineHead (line : String) : List Char := line.toList.takeWhile (· != ' ')

theorem takeWhile_append_space (l r : List Char) :
    (l ++ ' ' :: r).takeWhile (· != ' ') = l.takeWhile (· != ' ') := by
  induction l with
  | nil => simp
  | cons c l ih => simp only [List.cons_append, List.takeWhile_cons, ih]

section Heads

variable {m : String} {x y : Reg}

@[simp] theorem lineHead_lineA {nnn : Word} : lineHead (lineA m nnn) = lineHead m := by
  simp [lineHead, lineA, takeWhile_append_space]

@[simp] theorem lineHead_lineXI {nn : Byte} : lineHead (lineXI m x nn) = lineHead m := by
  simp [lineHead, lineXI, takeWhile_append_space]

@[simp] theorem lineHead_lineXY : lineHead (lineXY m x y) = lineHead m := by
  simp [lineHead, lineXY, takeWhile_append_space]

@[simp] theorem lineHead_lineXYN {n : Nat} : lineHead (lineXYN m x y n) = lineHead m := by
  simp [lineHead, lineXYN, takeWhile_append_space]

@[simp] theorem lineHead_lineXF : lineHead (lineXF m x) = lineHead m := by
  simp [lineHead, lineXF, takeWhile_append_space]

end Heads

theorem lineHead_unknownText (w : Word) : lineHead (unknownText w) = "UNKNOWN".toList := by
  simp [lineHead, unknownText]

/-- A row of the table has one mnemonic: the head of its lines does not depend on the word. -/
theorem lineHead_instrText_build : ∀ e ∈ opcodeTable, ∀ w,
    lineHead (instrText (e.build w)) = lineHead (instrText (e.build 0)) := by
  simp [opcodeTable, List.finRange_succ, bucket, bucketLow, bucket8, bucketE, bucketF, instrText]

theorem entry_eq_of_instrText_eq {e f : Entry} (he : e ∈ opcodeTable) (hf : f ∈ opcodeTable) {v w : Word}
    (h : instrText (e.build v) = instrText (f.build w)) : e = f := by
  have hnodup : (opcodeTable.map fun e => lineHead (instrText (e.build 0))).Nodup := by decide
  refine List.inj_on_of_nodup_map hnodup he hf ?_
  rw [← lineHead_instrText_build e he v, h, lineHead_instrText_build f hf]

theorem instrText_build_ne_unknownText {e : Entry} (he : e ∈ opcodeTable) (v w : Word) :
    instrText (e.build v) ≠ unknownText w := by
  have hne : ∀ e ∈ opcodeTable, lineHead (instrText (e.build 0)) ≠ "UNKNOWN".toList := by decide
  intro h
  apply hne e he
  rw [← lineHead_instrText_build e he v, h, lineHead_unknownText]

/-! ### The operands -/

/-- Within a row: the lines have one mnemonic and one format, and a format's text is injective in its
operands. -/
theorem build_eq_of_instrText_eq : ∀ e ∈ opcodeTable, ∀ v w,
    instrText (e.build v) = instrText (e.build w) → e.build v = e.build w := by
  simp +contextual [opcodeTable, List.finRange_succ, bucket, bucketLow, bucket8, bucketE, bucketF,
    instrText, lineA_inj, fieldNNN_le, lineXYN_inj, fieldN]

theorem disasm_cases (w : Word) :
    (∃ e ∈ opcodeTable, encode (e.build w) = w ∧ disasm w = instrText (e.build w)) ∨
    disasm w = unknownText w := by
  cases hd : decodeWord w with
  | none => exact .inr (by rw [disasm, hd])
  | some i =>
    obtain ⟨e, he, hm, rfl⟩ := exists_entry_of_decodeWord hd
    exact .inl ⟨e, he, encode_build_of_matches he hm, by rw [disasm, hd]⟩

/-- Settles O50: equal texts come from one entry with equal operands, or from two unknown words. -/
theorem textDeterminesTheWord : Obligations.TextDeterminesTheWord := by
  intro v w h
  obtain ⟨e, he, hev, hv⟩ | hv := disasm_cases v <;>
    obtain ⟨f, hf, hfw, hw⟩ | hw := disasm_cases w <;>
    rw [hv, hw] at h
  · obtain rfl := entry_eq_of_instrText_eq he hf h
    rw [← hev, ← hfw, build_eq_of_instrText_eq e he v w h]
  · exact absurd h (instrText_build_ne_unknownText he v w)
  · exact absurd h.symm (instrText_build_ne_unknownText hf w v)
  · exact unknownText_inj h

end Sys2Proof.Machine
end

section
/-! The cycle and the run (R121 to R127): the step that each way of fetching takes, `cycle` as a step with
its boolean, and a run as a step and the rest of the run. -/

namespace Sys2Proof.Machine

variable {s t : State}

/-! ### The three ways a running machine steps, by its fetch -/

theorem step_of_pc_gt (hrun : s.halted = false) (hpc : s.pc.toNat > 0xFFE) :
    step s = .next (s.raise .fetchOutOfBounds) := by
  obtain ⟨hhalt, -⟩ | ⟨-, -, -, he⟩ | ⟨-, hle, -⟩ | ⟨-, -, hle, -⟩ := step_cases s
  · simp [hrun] at hhalt
  · exact he
  · omega
  · omega

theorem step_of_nextInstr_eq_none (hrun : s.halted = false) (hpc : s.pc.toNat ≤ 0xFFE)
    (h : s.nextInstr = none) : step s = .next (s.raise .unknownInstruction) := by
  obtain ⟨hhalt, -⟩ | ⟨-, hgt, -⟩ | ⟨-, -, -, he⟩ | ⟨i, -, -, hi, -⟩ := step_cases s
  · simp [hrun] at hhalt
  · omega
  · exact he
  · cases h.symm.trans hi

/-- The word a running machine fetches, as the big-endian number of its two bytes (R62). -/
theorem State.nextInstr_of_toNat {w : Word} (hrun : s.halted = false) (hpc : s.pc.toNat ≤ 0xFFE)
    (hw : w.toNat = 256 * (s.load s.pc.toNat).toNat + (s.load (s.pc.toNat + 1)).toNat) :
    s.nextInstr = decodeWord w :=
  State.nextInstr_of_wordAt (composeWord_of_toNat hw) hrun hpc

/-- Settles O7: the fetched word is `w`, so `i` is the next instruction. -/
theorem stepRunsTheDecodedInstruction : Obligations.StepRunsTheDecodedInstruction := by
  intro s w i hrun hpc hw hdec
  exact step_of_nextInstr ((State.nextInstr_of_toNat hrun hpc hw).trans hdec)

/-- Settles O9: the step is the Halt sequence of cause 1 (R224), written out. -/
theorem unknownWordHalts : Obligations.UnknownWordHalts := by
  intro s w hrun hpc hw hdec
  rw [step_of_nextInstr_eq_none hrun hpc ((State.nextInstr_of_toNat hrun hpc hw).trans hdec),
    State.raise_of_halt rfl]

/-! ### The boolean of a cycle -/

theorem cycle_of_step (h : step s = .next t) : cycle s = .next (t, t.halted) := by
  rw [cycle, h]

/-- Settles O11: under the invariant every step answers a next state. -/
theorem cycleReturnsHalted : Obligations.CycleReturnsHalted := by
  intro s hinv
  obtain ⟨t, ht, -⟩ := stepKeepsTheInvariant s hinv
  exact ⟨t, ht, cycle_of_step ht⟩

/-! ### A run -/

/-- The `k` steps after a step that answered `o`; none after a fault or a refusal. -/
def runAfter (k : Nat) : Host.Outcome State Fault Refusal → Host.Outcome State Fault Refusal
  | .next t => core.run k t
  | .fault f => .fault f
  | .refused r => .refused r

theorem run_succ (k : Nat) (s : State) : core.run (k + 1) s = runAfter k (step s) := by
  refine (Host.Core.run.eq_2 core s k).trans ?_
  show _ = runAfter k (core.step s)
  cases core.step s <;> rfl

theorem run_of_halted (h : s.halted = true) (k : Nat) : core.run k s = .next s := by
  induction k with
  | zero => rfl
  | succ k ih =>
    rw [run_succ, step_of_halted h]
    exact ih

/-- Settles O8: the step of a halted machine gives it back, and so does every run. -/
theorem haltedMachineStaysAsItIs : Obligations.HaltedMachineStaysAsItIs := by
  intro s h
  exact ⟨h ▸ cycle_of_step (step_of_halted h), run_of_halted h⟩

/-! ### A change of the next state -/

/-- The outcome with `f` applied to its next state. -/
def onNext (f : State → State) : Host.Outcome State Fault Refusal → Host.Outcome State Fault Refusal
  | .next t => .next (f t)
  | .fault r => .fault r
  | .refused r => .refused r

@[simp] theorem onNext_next (f : State → State) (t : State) : onNext f (.next t) = .next (f t) := rfl

@[simp] theorem onNext_fault (f : State → State) (r : Fault) : onNext f (.fault r) = .fault r := rfl

end Sys2Proof.Machine
end

section
/-! The document's literal cycle (R126, R128): its trailing `pc + 2` undoes the compensation of every
literal execute behaviour, so that the two together are `exec`. -/

namespace Sys2Proof.Machine

variable {s t : State} {i : Instr}

/-- The trailing `pc <- pc + 2` of the literal cycle, which a fatal condition leaves out (R126). -/
def State.trailing (t : State) : State := if t.haltCause.isFatal then t else { t with pc := t.pc + 2 }

theorem State.trailing_of_not_fatal (h : t.haltCause.isFatal = false) :
    t.trailing = { t with pc := t.pc + 2 } := by
  simp [State.trailing, h]

theorem State.trailing_setPc (h : s.haltCause.isFatal = false) (p : Word) :
    State.trailing { s with pc := p } = { s with pc := p + 2 } :=
  State.trailing_of_not_fatal (t := { s with pc := p }) h

/-- The Halt and the Fatal sequence are the stop itself with the trailing `+ 2` (R224, R225). -/
theorem State.trailing_stop (s : State) (c : HaltCause) :
    State.trailing { s with halted := true, haltCause := c } = s.raise c := by
  unfold State.trailing State.raise
  split <;> rfl

theorem word_add_two_add_two (w : Word) : w + 2 + 2 = w + 4 := by bv_omega

/-! ### The literal execute behaviours -/

/-- A behaviour that ends with `pc <- pc + 2`: the literal form leaves `pc` alone. -/
theorem trailing_withPcOf_of_pc (hcause : s.haltCause.isFatal = false) (he : exec i s = .next t)
    (hc : t.haltCause = s.haltCause) (hpc : t.pc = s.pc + 2) :
    onNext State.trailing (withPcOf s (exec i s)) = exec i s := by
  rw [he, withPcOf, onNext_next, State.trailing_of_not_fatal (by rwa [hc]), ← hpc]

/-- A behaviour that stops. -/
theorem trailing_withPcOf_of_raise {c : HaltCause} (he : exec i s = .next (s.raise c)) :
    onNext State.trailing (withPcOf s (exec i s)) = exec i s := by
  rw [he, withPcOf, onNext_next, ← State.trailing_stop]
  unfold State.trailing
  split <;> rfl

/-- A skip: the literal form adds 2 when it is taken and nothing when not. -/
theorem trailing_ite_skip (hcause : s.haltCause.isFatal = false) (P : Prop) [Decidable P] :
    State.trailing (if P then { s with pc := s.pc + 2 } else s) = s.skipWhen (decide P) := by
  by_cases hP : P
  · rw [if_pos hP, State.trailing_setPc hcause, word_add_two_add_two]
    simp [State.skipWhen, hP]
  · rw [if_neg hP, State.trailing_of_not_fatal hcause]
    simp [State.skipWhen, hP]

theorem trailing_literalExec (hrun : s.halted = false) (hcause : s.haltCause.isFatal = false) (i : Instr) :
    onNext State.trailing (literalExec i s) = exec i s := by
  cases i with
  | jp nnn =>
    rw [literalExec, onNext_next, State.trailing_setPc hcause, BitVec.sub_add_cancel]
    rfl
  | call nnn =>
    obtain ⟨_, he⟩ | ⟨-, he⟩ | ⟨-, he⟩ := exec_call nnn s
    · simp [literalExec, he, hrun, State.trailing_of_not_fatal, hcause]
    · simp [literalExec, he, State.trailing, HaltCause.isFatal]
    · simp [literalExec, he]
  | ret =>
    obtain ⟨j, -, he⟩ | ⟨-, he⟩ | ⟨-, he⟩ := exec_ret s
    · simp [literalExec, he, hrun, State.trailing_of_not_fatal, hcause]
    · simp [literalExec, he, State.trailing, HaltCause.isFatal]
    · simp [literalExec, he]
  | sei x nn => exact congrArg _ (trailing_ite_skip hcause (s.reg x = nn))
  | ser x y => exact congrArg _ (trailing_ite_skip hcause (s.reg x = s.reg y))
  | snei x nn =>
    rw [literalExec, onNext_next, trailing_ite_skip hcause]
    simp [exec, execSnei, bne, Bool.beq_eq_decide_eq]
  | sner x y =>
    rw [literalExec, onNext_next, trailing_ite_skip hcause]
    simp [exec, execSner, bne, Bool.beq_eq_decide_eq]
  | movi | addi | mov | or | and | xor | add | subr | shr | shl | iset | iadd | ifont =>
    rw [literalExec]
    exact trailing_withPcOf_of_pc hcause rfl rfl rfl
  | skp | sknp | gdt | wkey | sdt | sst | bcd =>
    rw [literalExec]
    exact trailing_withPcOf_of_raise rfl
  | stm x =>
    obtain ⟨-, he⟩ | ⟨-, he⟩ := exec_stm x s
    · rw [State.storeRegs_advance_eq] at he
      exact trailing_withPcOf_of_pc hcause he rfl rfl
    · exact trailing_withPcOf_of_raise he
  | ldm x =>
    obtain ⟨-, he⟩ | ⟨-, he⟩ := exec_ldm x s
    · rw [State.loadRegs_advance_eq] at he
      exact trailing_withPcOf_of_pc hcause he rfl rfl
    · exact trailing_withPcOf_of_raise he
  | drw x y n =>
    obtain ⟨-, he⟩ | ⟨-, -, he⟩ := exec_drw x y n s
    · rw [State.drawRows_advance_eq] at he
      exact trailing_withPcOf_of_pc hcause he rfl rfl
    · exact trailing_withPcOf_of_raise he

/-! ### The literal cycle, by the guards of the step -/

theorem literalCycle_of_halted (h : s.halted = true) : literalCycle s = .next s := by
  simp [literalCycle, h]

theorem literalCycle_of_pc_gt (hrun : s.halted = false) (hpc : s.pc.toNat > 0xFFE) :
    literalCycle s = .next (s.raise .fetchOutOfBounds) := by
  rw [State.raise_of_fatal rfl]
  simp [literalCycle, hrun, hpc]

theorem literalCycle_of_unknown (hrun : s.halted = false) (hpc : s.pc.toNat ≤ 0xFFE)
    (hdec : decodeWord (s.wordAt s.pc.toNat) = none) :
    literalCycle s = .next (s.raise .unknownInstruction) := by
  rw [← State.trailing_stop]
  simp only [literalCycle, hrun, hdec, Nat.not_lt.mpr hpc, Bool.false_eq_true, if_false]
  rfl

theorem literalCycle_of_decoded (hrun : s.halted = false) (hpc : s.pc.toNat ≤ 0xFFE)
    (hdec : decodeWord (s.wordAt s.pc.toNat) = some i) :
    literalCycle s = onNext State.trailing (literalExec i s) := by
  simp only [literalCycle, hrun, hdec, Nat.not_lt.mpr hpc, Bool.false_eq_true, if_false]
  cases literalExec i s <;> rfl

theorem State.Inv.haltCause_of_running (h : s.Inv) (hrun : s.halted = false) : s.haltCause = .none := by
  obtain ⟨-, -, -, -, hcause, -⟩ := h
  simpa [hrun] using hcause.symm

/-- Settles O12, by the ways a cycle can go. Of the invariant it takes that a running machine has no
halt cause, which the literal cycle's exception for a fatal condition would otherwise read. -/
theorem literalCycleGivesTheSameState : Obligations.LiteralCycleGivesTheSameState := by
  intro s hinv
  obtain ⟨hhalt, he⟩ | ⟨hrun, hpc, -, he⟩ | ⟨hrun, hpc, hnext, he⟩ | ⟨i, hrun, hpc, hnext, he⟩ :=
    step_cases s
  · rw [he, literalCycle_of_halted hhalt]
  · rw [he, literalCycle_of_pc_gt hrun hpc]
  · rw [State.nextInstr_of_wordAt rfl hrun hpc] at hnext
    rw [he, literalCycle_of_unknown hrun hpc hnext]
  · rw [State.nextInstr_of_wordAt rfl hrun hpc] at hnext
    have hcause : s.haltCause.isFatal = false := by rw [hinv.haltCause_of_running hrun]; rfl
    rw [he, literalCycle_of_decoded hrun hpc hnext, trailing_literalExec hrun hcause]

end Sys2Proof.Machine
end

section
/-! The host's inputs (R129, R257): setting the timers and keys commutes with every loop, instruction,
step and run. -/

namespace Sys2Proof.Machine

variable (s : State) (dt st : Byte) (keys : Vector Bool 16)

/-! ### The operations that test the state, and the loops -/

theorem drawPixel_withInputs (row col : Nat) (bit : Bool) :
    (withInputs s dt st keys).drawPixel row col bit = withInputs (s.drawPixel row col bit) dt st keys := by
  simp only [State.drawPixel, apply_ite (withInputs · dt st keys)]
  rfl

theorem drawRow_withInputs (x0 row : Nat) (b : Byte) (count : Nat) :
    (withInputs s dt st keys).drawRow x0 row b count = withInputs (s.drawRow x0 row b count) dt st keys := by
  induction count with
  | zero => rfl
  | succ c ih => rw [State.drawRow, ih, drawPixel_withInputs, State.drawRow]

theorem drawRows_withInputs (x0 y0 count : Nat) :
    (withInputs s dt st keys).drawRows x0 y0 count = withInputs (s.drawRows x0 y0 count) dt st keys := by
  induction count with
  | zero => rfl
  | succ r ih =>
    rw [State.drawRows, ih]
    exact drawRow_withInputs (s.drawRows x0 y0 r) ..

theorem storeRegs_withInputs (count : Nat) :
    (withInputs s dt st keys).storeRegs count = withInputs (s.storeRegs count) dt st keys := by
  induction count with
  | zero => rfl
  | succ i ih =>
    rw [State.storeRegs, ih]
    rfl

theorem loadRegs_withInputs (count : Nat) :
    (withInputs s dt st keys).loadRegs count = withInputs (s.loadRegs count) dt st keys := by
  induction count with
  | zero => rfl
  | succ i ih =>
    rw [State.loadRegs, ih]
    rfl

/-- The range check of a transfer reads no input, and neither does the Fatal stop. -/
theorem transfer_withInputs (count : Nat) {effect effect' : State → State}
    (h : effect' (withInputs s dt st keys) = withInputs (effect s) dt st keys) :
    (withInputs s dt st keys).transfer count effect' =
      onNext (withInputs · dt st keys) (s.transfer count effect) := by
  obtain ⟨hr, he⟩ | ⟨hr, he⟩ := s.transfer_eq count effect
  · rw [he, State.transfer_of_inRange (s := withInputs s dt st keys) hr, h, onNext_next]
  · rw [he, State.transfer_of_outOfRange (s := withInputs s dt st keys) hr]
    rfl

/-! ### An instruction, a step, a run -/

theorem exec_withInputs (i : Instr) :
    exec i (withInputs s dt st keys) = onNext (withInputs · dt st keys) (exec i s) := by
  cases i with
  | ret =>
    simp only [exec, execRet, apply_ite (onNext _), apply_dite (onNext _)]
    rfl
  | call nnn =>
    simp only [exec, execCall, apply_ite (onNext _), apply_dite (onNext _)]
    rfl
  | stm x =>
    simp only [exec, execStm]
    exact transfer_withInputs s dt st keys _ (congrArg State.advance (storeRegs_withInputs s dt st keys _))
  | ldm x =>
    simp only [exec, execLdm]
    exact transfer_withInputs s dt st keys _ (congrArg State.advance (loadRegs_withInputs s dt st keys _))
  | drw x y n =>
    simp only [exec, execDrw]
    exact transfer_withInputs s dt st keys n
      (congrArg State.advance (drawRows_withInputs (s.setReg flagReg 0x00) dt st keys _ _ n))
  | jp | sei | snei | ser | sner | movi | addi | mov | or | and | xor | add | subr | shr | shl | iset
  | iadd | ifont | skp | sknp | gdt | wkey | sdt | sst | bcd => rfl

theorem step_withInputs :
    step (withInputs s dt st keys) = onNext (withInputs · dt st keys) (step s) := by
  obtain ⟨hhalt, he⟩ | ⟨hrun, hpc, -, he⟩ | ⟨hrun, hpc, hnext, he⟩ | ⟨i, -, -, hnext, he⟩ := step_cases s
  · rw [he, step_of_halted (s := withInputs s dt st keys) hhalt, onNext_next]
  · rw [he, step_of_pc_gt (s := withInputs s dt st keys) hrun hpc]
    rfl
  · rw [he, step_of_nextInstr_eq_none (s := withInputs s dt st keys) hrun hpc hnext]
    rfl
  · rw [he, step_of_nextInstr (s := withInputs s dt st keys) hnext, exec_withInputs]

theorem run_withInputs (k : Nat) :
    core.run k (withInputs s dt st keys) = onNext (withInputs · dt st keys) (core.run k s) := by
  induction k generalizing s with
  | zero => rfl
  | succ k ih =>
    rw [run_succ, run_succ, step_withInputs]
    cases step s with
    | next t => exact ih t
    | fault f => rfl
    | refused r => rfl

/-- Settles O44: the statement's match is `onNext` written out. -/
theorem timersAndKeysNeverInfluenceARun : Obligations.TimersAndKeysNeverInfluenceARun := by
  intro k s dt st keys
  rw [run_withInputs]
  cases core.run k s <;> rfl

end Sys2Proof.Machine
end

section
/-! Control flow (R140 to R147): CALL and RET by the value of `sp`, an entry read after a push, the skips,
and the decoding of a laid-out word. -/

namespace Sys2Proof.Machine

variable {s : State}

/-! ### CALL and RET, one equation for each range of `sp` that has an effect in the spec -/

theorem exec_call_of_sp_lt (nnn : Word) (h : s.sp.toNat < 16) : exec (.call nnn) s =
    .next { s with stack := s.stack.set s.sp.toNat (s.pc + 2) h, sp := s.sp + 1, pc := nnn } := by
  obtain ⟨_, he⟩ | ⟨hsp, -⟩ | ⟨hsp, -⟩ := exec_call nnn s
  · exact he
  · omega
  · omega

theorem exec_call_of_sp_eq (nnn : Word) (h : s.sp.toNat = 16) :
    exec (.call nnn) s = .next (s.raise .stackOverflow) := by
  obtain ⟨hsp, -⟩ | ⟨-, he⟩ | ⟨hsp, -⟩ := exec_call nnn s
  · omega
  · exact he
  · omega

theorem exec_ret_of_sp_eq_succ {j : Fin 16} (h : s.sp.toNat = j.val + 1) :
    exec .ret s = .next { s with sp := s.sp - 1, pc := s.stack[j] } := by
  obtain ⟨k, hk, he⟩ | ⟨hsp, -⟩ | ⟨hsp, -⟩ := exec_ret s
  · obtain rfl : k = j := by omega
    exact he
  · omega
  · omega

theorem exec_ret_of_sp_eq_zero (h : s.sp.toNat = 0) :
    exec .ret s = .next (s.raise .stackUnderflow) := by
  obtain ⟨k, hk, -⟩ | ⟨-, he⟩ | ⟨hsp, -⟩ := exec_ret s
  · omega
  · exact he
  · omega

/-- Read after write in the stack. -/
theorem stack_getElem_set (stack : Vector Word 16) {k : Nat} (hk : k < 16) (v : Word) (j : Fin 16) :
    (stack.set k v hk)[j] = if j.val = k then v else stack[j] := by
  simp only [Fin.getElem_fin, Vector.getElem_set, eq_comm]

/-- Settles O19: the RET pops the entry that the CALL pushed, and subtracting 1 from `sp` undoes adding 1. -/
theorem callThenRetResumesAfterTheCall : Obligations.CallThenRetResumesAfterTheCall := by
  intro s nnn j hj
  have hfree : s.sp.toNat < 16 := by omega
  refine ⟨_, exec_call_of_sp_lt nnn hfree, fun u hsp hentry => ?_⟩
  have husp : u.sp.toNat = j.val + 1 := by rw [hsp, sp_add_one_toNat hfree, hj]
  refine ⟨_, exec_ret_of_sp_eq_succ husp, ?_, ?_⟩
  · exact hentry.trans ((stack_getElem_set s.stack hfree _ j).trans (if_pos hj.symm))
  · exact BitVec.eq_of_toNat_eq ((sp_sub_one_toNat husp).trans hj.symm)

/-! ### Decoding a laid-out word -/

theorem decodeWord_of_encode_eq {i : Instr} {w : Word} (h : encode i = w) (hi : i.wellFormed = true) :
    decodeWord w = some i :=
  h ▸ decodeWord_encode hi

/-- A 12-bit immediate, zero-extended, is an address operand that `Instr.wellFormed` accepts (R93). -/
theorem decide_setWidth_le (nnn : BitVec 12) : decide ((nnn.setWidth 16).toNat ≤ 0xFFF) = true := by
  rw [decide_eq_true_iff, BitVec.toNat_setWidth_of_le (by decide)]
  omega

/-- In a bucket whose one entry is of format `XY` with low nibble 0, no other low nibble matches (R105). -/
theorem decodeWord_layoutXYN_eq_none {op : BitVec 4} {e : Entry} (hb : bucket op = some [e])
    (hmask : e.mask = 0xF00F) (hvalue : e.value = layoutXYN op 0 0 0) (x y : Reg) {n : BitVec 4}
    (hn : n ≠ 0) : decodeWord (layoutXYN op x y n) = none := by
  have hbucket : bucket (fieldOP (layoutXYN op x y n)) = some [e] := by rw [fieldOP_layoutXYN, hb]
  rw [decodeWord_eq_none_iff hbucket, List.forall_mem_singleton, Entry.matches_iff, hmask, hvalue,
    layoutXYN_and_F00F]
  intro h
  have hlow : n.toNat = (0 : BitVec 4).toNat := by simpa only [fieldN_layoutXYN] using congrArg fieldN h
  exact hn (BitVec.eq_of_toNat_eq hlow)

/-! ### JP, CALL and RET -/

/-- Settles O13, by the encoding of format `A` and the one equation of JP. -/
theorem jpSetsPc : Obligations.JpSetsPc := by
  intro s nnn
  exact ⟨decodeWord_of_encode_eq (or_setWidth_layoutA 1 nnn) (decide_setWidth_le nnn),
    _, rfl, BitVec.toNat_setWidth_of_le (by decide), rfl⟩

/-- Settles O14, by the two ranges of `sp`; the entry is read back from the stack with one entry set. -/
theorem callPushesTheReturnAddress : Obligations.CallPushesTheReturnAddress := by
  intro s nnn
  refine ⟨decodeWord_of_encode_eq (or_setWidth_layoutA 2 nnn) (decide_setWidth_le nnn),
    fun hfree => ?_, fun hfull => ?_⟩
  · exact ⟨_, exec_call_of_sp_lt _ hfree, stack_getElem_set s.stack hfree (s.pc + 2),
      sp_add_one_toNat hfree, BitVec.toNat_setWidth_of_le (by decide), rfl⟩
  · rw [exec_call_of_sp_eq _ hfull, State.raise_of_fatal rfl]

/-- Settles O15, by the two ranges of `sp`. -/
theorem retPopsTheReturnAddress : Obligations.RetPopsTheReturnAddress := by
  refine ⟨decodeWord_of_encode_eq (i := .ret) rfl rfl, fun s => ⟨fun j hj => ?_, fun hempty => ?_⟩⟩
  · exact ⟨_, exec_ret_of_sp_eq_succ hj, rfl, sp_sub_one_toNat hj, rfl, rfl⟩
  · rw [exec_ret_of_sp_eq_zero hempty, State.raise_of_fatal rfl]

/-! ### The skips -/

theorem skips_of_exec_eq {i : Instr} {taken : Bool} {P : Prop} (he : exec i s = .next (s.skipWhen taken))
    (h : taken = true ↔ P) : Skips i s P := by
  refine ⟨_, he, fun hP => ?_, fun hP => ?_, rfl⟩
  · rw [State.skipWhen_pc, if_pos (h.2 hP)]
  · rw [State.skipWhen_pc, if_neg (mt h.1 hP)]

/-- Settles O17: the two skips test `==` and `!=` of the register and the immediate. -/
theorem immediateSkips : Obligations.ImmediateSkips := by
  intro s x nn
  exact ⟨decodeWord_of_encode_eq (or_placeX_setWidth 3 x nn) rfl, skips_of_exec_eq rfl beq_iff_eq,
    decodeWord_of_encode_eq (or_placeX_setWidth 4 x nn) rfl, skips_of_exec_eq rfl bne_iff_ne⟩

/-- Settles O18: the two skips test `==` and `!=` of the registers, and each is alone in its bucket. -/
theorem registerSkips : Obligations.RegisterSkips := by
  intro s x y
  exact ⟨decodeWord_of_encode_eq (or_placeX_placeY 5 x y 0) rfl, skips_of_exec_eq rfl beq_iff_eq,
    decodeWord_of_encode_eq (or_placeX_placeY 9 x y 0) rfl, skips_of_exec_eq rfl bne_iff_ne,
    fun n hn => ⟨decodeWord_layoutXYN_eq_none rfl rfl rfl x y hn,
      decodeWord_layoutXYN_eq_none rfl rfl rfl x y hn⟩⟩

end Sys2Proof.Machine
end

section
/-! The register and ALU instructions (R160 to R169): one register written, or a register and the flag, and
the arithmetic of `Machine/Flags.lean` as residues, quotients and comparisons of natural numbers. -/

namespace Sys2Proof.Machine

variable {s : State}

/-! ### The values written -/

theorem sumOf_eq_ofNat_mod (a b : Byte) : sumOf a b = BitVec.ofNat 8 ((a.toNat + b.toNat) % 256) :=
  BitVec.eq_of_toNat_eq (Nat.mod_mod ..).symm

/-- R167's two cases: without a borrow, the 256 added to `a` is a whole turn. -/
theorem differenceOf_eq_ofNat_ite (a b : Byte) : differenceOf a b =
    BitVec.ofNat 8 (if a.toNat ≥ b.toNat then a.toNat - b.toNat else a.toNat + 256 - b.toNat) := by
  rw [differenceOf]
  split
  · next hle =>
    rw [Nat.sub_add_comm hle]
    exact BitVec.eq_of_toNat_eq (by simp)
  · rfl

theorem shiftedOutRight_eq_ofNat_mod (v : Byte) : shiftedOutRight v = BitVec.ofNat 8 (v.toNat % 2) := by
  apply BitVec.eq_of_toNat_eq
  have hbit : (v &&& 0x01).toNat = v.toNat % 2 := (BitVec.toNat_and ..).trans (Nat.and_one_is_mod _)
  rw [shiftedOutRight, hbit, BitVec.toNat_ofNat]
  omega

theorem shiftedRight_eq_ofNat_div (v : Byte) : shiftedRight v = BitVec.ofNat 8 (v.toNat / 2) := by
  apply BitVec.eq_of_toNat_eq
  rw [shiftedRight, BitVec.toNat_ushiftRight, Nat.shiftRight_eq_div_pow, BitVec.toNat_ofNat]
  omega

theorem shiftedOutLeft_eq_ite (v : Byte) :
    shiftedOutLeft v = if v.toNat ≥ 128 then 0x01 else 0x00 := by
  have hdiv : (shiftedOutLeft v).toNat = v.toNat / 128 := by
    rw [shiftedOutLeft, BitVec.toNat_ushiftRight, Nat.shiftRight_eq_div_pow]
  split <;> bv_omega

theorem shiftedLeft_eq_ofNat_mod (v : Byte) : shiftedLeft v = BitVec.ofNat 8 (2 * v.toNat % 256) := by
  apply BitVec.eq_of_toNat_eq
  rw [shiftedLeft, BitVec.toNat_shiftLeft, Nat.shiftLeft_eq, BitVec.toNat_ofNat]
  omega

/-- SHL with `X = 15` leaves twice the bit shifted out (R169). -/
theorem shiftedLeft_shiftedOutLeft_eq_ite (v : Byte) :
    shiftedLeft (shiftedOutLeft v) = if v.toNat ≥ 128 then 0x02 else 0x00 := by
  rw [shiftedOutLeft_eq_ite, apply_ite shiftedLeft]
  rfl

/-! ### The registers after the writes -/

theorem writesRegisters_of_exec_eq {i : Instr} {u : State} {v : Reg → Byte}
    (he : exec i s = .next u.advance) (hframe : ∃ regs, u = { s with regs := regs })
    (hv : ∀ r, u.reg r = v r) : WritesRegisters i s v := by
  obtain ⟨regs, rfl⟩ := hframe
  exact ⟨_, he, hv, rfl, rfl⟩

theorem writesRegisters_of_setReg {i : Instr} {x : Reg} {b : Byte}
    (he : exec i s = .next (s.setReg x b).advance) :
    WritesRegisters i s (fun r => if r = x then b else s.reg r) :=
  writesRegisters_of_exec_eq he ⟨_, rfl⟩ fun r => State.reg_setReg s x r b

/-- ADD and SUBR: the flag is written last, so with `X = 15` it stays (R166, R167, D8). -/
theorem State.reg_setReg_setReg_flagReg (x r : Reg) (v b : Byte) :
    ((s.setReg x v).setReg flagReg b).reg r = if r = 15 then b else if r = x then v else s.reg r := by
  rw [State.reg_setReg, State.reg_setReg]

/-- SHR and SHL: the flag is written first, so with `X = 15` the bit shifted out is shifted (R168, R169). -/
theorem State.reg_setReg_flagReg_setReg (x r : Reg) (b : Byte) (f : Byte → Byte) :
    ((s.setReg flagReg b).setReg x (f ((s.setReg flagReg b).reg x))).reg r =
      if r = 15 then (if x = 15 then f b else b) else if r = x then f (s.reg x) else s.reg r := by
  by_cases hr : r = 15
  · rw [if_pos hr, hr, State.reg_flagReg_setReg_flagReg]
  · rw [if_neg hr, State.reg_setReg]
    split
    · next hrx => rw [State.reg_setReg, if_neg (hrx ▸ hr)]
    · rw [State.reg_setReg, if_neg hr]

/-! ### The instructions -/

/-- Settles O21, by the one write of MOVI. -/
theorem moviSetsTheRegister : Obligations.MoviSetsTheRegister := by
  intro s x nn
  exact ⟨decodeWord_of_encode_eq (or_placeX_setWidth 6 x nn) rfl, writesRegisters_of_setReg rfl⟩

/-- Settles O22, by the one write of ADDI and the sum as a residue. -/
theorem addiWrapsAndTouchesNoFlag : Obligations.AddiWrapsAndTouchesNoFlag := by
  intro s x nn
  exact ⟨decodeWord_of_encode_eq (or_placeX_setWidth 7 x nn) rfl,
    sumOf_eq_ofNat_mod (s.reg x) nn ▸ writesRegisters_of_setReg rfl⟩

/-- Settles O23, by the one write of each of the four. -/
theorem copyAndLogicWriteOnlyTheDestination : Obligations.CopyAndLogicWriteOnlyTheDestination := by
  intro s x y
  exact ⟨
    ⟨decodeWord_of_encode_eq (or_placeX_placeY 8 x y 0) rfl, writesRegisters_of_setReg rfl⟩,
    ⟨decodeWord_of_encode_eq (or_placeX_placeY 8 x y 1) rfl, writesRegisters_of_setReg rfl⟩,
    ⟨decodeWord_of_encode_eq (or_placeX_placeY 8 x y 2) rfl, writesRegisters_of_setReg rfl⟩,
    ⟨decodeWord_of_encode_eq (or_placeX_placeY 8 x y 3) rfl, writesRegisters_of_setReg rfl⟩⟩

/-- Settles O24: the sum, then the carry over it. -/
theorem addWritesSumThenCarry : Obligations.AddWritesSumThenCarry := by
  intro s x y
  refine ⟨decodeWord_of_encode_eq (or_placeX_placeY 8 x y 4) rfl,
    writesRegisters_of_exec_eq rfl ⟨_, rfl⟩ fun r => ?_⟩
  rw [State.reg_setReg_setReg_flagReg, sumOf_eq_ofNat_mod, carryOf]

/-- Settles O25: the difference, then the borrow over it. -/
theorem subrWritesDifferenceThenBorrow : Obligations.SubrWritesDifferenceThenBorrow := by
  intro s x y
  refine ⟨decodeWord_of_encode_eq (or_placeX_placeY 8 x y 5) rfl,
    writesRegisters_of_exec_eq rfl ⟨_, rfl⟩ fun r => ?_⟩
  rw [State.reg_setReg_setReg_flagReg, differenceOf_eq_ofNat_ite, borrowOf]

/-- Settles O26: the bit shifted out, then the shift of what `V[X]` holds by then. -/
theorem shrWritesFlagThenShifts : Obligations.ShrWritesFlagThenShifts := by
  intro s x y
  refine ⟨decodeWord_of_encode_eq (or_placeX_placeY 8 x y 6) rfl,
    writesRegisters_of_exec_eq rfl ⟨_, rfl⟩ fun r => ?_⟩
  rw [State.reg_setReg_flagReg_setReg, shiftedRight_shiftedOutRight, shiftedOutRight_eq_ofNat_mod,
    shiftedRight_eq_ofNat_div]

/-- Settles O27: the bit shifted out, then the shift of what `V[X]` holds by then. -/
theorem shlWritesFlagThenShifts : Obligations.ShlWritesFlagThenShifts := by
  intro s x y
  refine ⟨decodeWord_of_encode_eq (or_placeX_placeY 8 x y 0xE) rfl,
    writesRegisters_of_exec_eq rfl ⟨_, rfl⟩ fun r => ?_⟩
  rw [State.reg_setReg_flagReg_setReg, shiftedLeft_shiftedOutLeft_eq_ite, shiftedOutLeft_eq_ite,
    shiftedLeft_eq_ofNat_mod]

end Sys2Proof.Machine
end

section
/-! Index and memory (R180 to R185): the three instructions that set `I`, and the two transfers by whether
their last byte lies in memory. -/

namespace Sys2Proof.Machine

variable {s : State} {x : Reg}

/-! ### STM and LDM, one equation for each range of the transfer -/

theorem exec_stm_of_outOfRange (h : s.index.toNat + x.val > 0xFFF) :
    exec (.stm x) s = .next (s.raise .memOutOfBounds) := by
  obtain ⟨hr, -⟩ | ⟨-, he⟩ := exec_stm x s
  · omega
  · exact he

theorem exec_ldm_of_inRange (h : s.index.toNat + x.val ≤ 0xFFF) :
    exec (.ldm x) s = .next (s.loadRegs (x.val + 1)).advance := by
  obtain ⟨-, he⟩ | ⟨hout, -⟩ := exec_ldm x s
  · exact he
  · omega

theorem exec_ldm_of_outOfRange (h : s.index.toNat + x.val > 0xFFF) :
    exec (.ldm x) s = .next (s.raise .memOutOfBounds) := by
  obtain ⟨hr, -⟩ | ⟨-, he⟩ := exec_ldm x s
  · omega
  · exact he

/-! ### The bytes stored and the registers loaded -/

/-- An address that is none of `I` to `I + X` reads as before the loop of STM. -/
theorem State.storeRegs_load_of_ne_dataAddr (h : Memory.wf s.config s.mem = true)
    (hr : s.index.toNat + x.val ≤ 0xFFF) {a : Nat} (ha : ∀ i ≤ x, a ≠ s.dataAddr i.val) :
    (s.storeRegs (x.val + 1)).load a = s.load a := by
  rw [State.storeRegs_load h (by simp only [memSize]; omega), if_neg]
  rintro ⟨hlo, hhi⟩
  have hx : a - s.index.toNat ≤ x.val := by omega
  refine ha ⟨a - s.index.toNat, by omega⟩ hx ?_
  rw [State.dataAddr_eq, Nat.add_sub_cancel' hlo]

/-- The loop of LDM up to `V[X]`, with its bound as the order of registers. -/
theorem State.loadRegs_reg_ite_le (r : Reg) : (s.loadRegs (x.val + 1)).reg r =
    if r ≤ x then s.load (s.index.toNat + r.val) else s.reg r :=
  (State.loadRegs_reg x.isLt r).trans (if_congr Nat.lt_succ_iff rfl rfl)

/-! ### The instructions -/

/-- Settles O30, by the range of the transfer: the loop stores the bytes and leaves the other addresses
alone, or the check before it stops the machine. -/
theorem stmStoresTheRegisters : Obligations.StmStoresTheRegisters := by
  intro s x hinv
  refine ⟨decodeWord_of_encode_eq (or_placeX 0xF x 0x55) rfl, State.dataAddr_eq, fun hr => ?_, fun hout => ?_⟩
  · refine ⟨_, exec_stm_of_inRange hr, fun i hi => ?_, fun a ha => ?_, ?_⟩
    · exact State.storeRegs_load_dataAddr hinv.1 hr hi
    · exact State.storeRegs_load_of_ne_dataAddr hinv.1 hr ha
    · rw [State.storeRegs_advance_eq]
      exact ⟨rfl, rfl⟩
  · rw [exec_stm_of_outOfRange hout, State.raise_of_fatal rfl]

/-- Settles O31, by the range of the transfer: the loop loads the registers up to `V[X]`, or the check
before it stops the machine. -/
theorem ldmLoadsTheRegisters : Obligations.LdmLoadsTheRegisters := by
  intro s x
  refine ⟨decodeWord_of_encode_eq (or_placeX 0xF x 0x65) rfl, fun hr => ?_, fun hout => ?_⟩
  · exact writesRegisters_of_exec_eq (exec_ldm_of_inRange hr) ⟨_, State.loadRegs_frame _⟩
      State.loadRegs_reg_ite_le
  · rw [exec_ldm_of_outOfRange hout, State.raise_of_fatal rfl]

/-- Settles O32: with the same `I` the LDM reads the addresses the STM wrote, which hold the registers. -/
theorem ldmAfterStmRestoresTheRegisters : Obligations.LdmAfterStmRestoresTheRegisters := by
  intro s x hinv hr
  refine ⟨_, exec_stm_of_inRange hr, fun u hindex hbytes => ?_⟩
  refine ⟨_, exec_ldm_of_inRange (by rwa [hindex]), fun r hrx => ?_⟩
  calc (u.loadRegs (x.val + 1)).advance.reg r
      = u.load (s.dataAddr r.val) := by
        rw [State.reg_advance, State.loadRegs_reg_ite_le, if_pos hrx, hindex, State.dataAddr_eq]
    _ = (s.storeRegs (x.val + 1)).advance.load (s.dataAddr r.val) := hbytes r hrx
    _ = s.reg r := State.storeRegs_load_dataAddr hinv.1 hr hrx

/-- Settles O29: the sum of IADD is a residue by definition, and five times a byte is below 65536. -/
theorem indexInstructionsSetTheIndex : Obligations.IndexInstructionsSetTheIndex := by
  refine ⟨fun s nnn => ⟨?_, _, rfl, ?_, rfl, rfl⟩, fun s x => ⟨?_, _, rfl, ?_, rfl, rfl⟩,
    fun s x => ⟨?_, _, rfl, ?_, rfl, rfl⟩⟩
  · exact decodeWord_of_encode_eq (or_setWidth_layoutA 0xA nnn) (decide_setWidth_le nnn)
  · exact BitVec.toNat_setWidth_of_le (by decide)
  · exact decodeWord_of_encode_eq (or_placeX 0xF x 0x1E) rfl
  · exact BitVec.toNat_ofNat ..
  · exact decodeWord_of_encode_eq (or_placeX 0xF x 0x29) rfl
  · have hlt : 5 * (s.reg x).toNat < 2 ^ 16 := by omega
    exact (BitVec.toNat_ofNat ..).trans (Nat.mod_eq_of_lt hlt)

end Sys2Proof.Machine
end

section
/-! The framebuffer (R190 to R196): the state DRW leaves, read cell by cell and register by register, and
that drawing once more gives back every cell, hence the framebuffer. -/

namespace Sys2Proof.Machine

variable {s t : State} {x0 y0 n : Nat}

/-! ### DRW, its word and one equation for each range of its row bytes -/

theorem encode_drw (x y : Reg) (n : BitVec 4) : encode (.drw x y n.toNat) = layoutXYN 0xD x y n := by
  rw [encode, BitVec.ofNat_toNat]
  exact or_placeX_placeY_ofNat 0xD x y n

/-- What DRW does to the machine once its coordinates are latched and its row bytes are in range (R190). -/
def State.drawn (s : State) (x0 y0 n : Nat) : State :=
  ((s.setReg flagReg 0x00).drawRows x0 y0 n).advance

theorem exec_drw_of_inRange {x y : Reg} (h : n = 0 ∨ s.index.toNat + (n - 1) ≤ 0xFFF) :
    exec (.drw x y n) s = .next (s.drawn (s.reg x).toNat (s.reg y).toNat n) := by
  obtain ⟨-, he⟩ | ⟨hpos, hout, -⟩ := exec_drw x y n s
  · exact he
  · omega

theorem exec_drw_of_outOfRange {x y : Reg} (hpos : n > 0) (hout : s.index.toNat + (n - 1) > 0xFFF) :
    exec (.drw x y n) s = .next (s.raise .memOutOfBounds) := by
  obtain ⟨hr, -⟩ | ⟨-, -, he⟩ := exec_drw x y n s
  · omega
  · exact he

/-! ### The drawn state -/

theorem State.drawn_eq : s.drawn x0 y0 n =
    { s with regs := (s.drawn x0 y0 n).regs, fb := (s.drawn x0 y0 n).fb, pc := s.pc + 2 } :=
  State.drawRows_advance_eq ..

@[simp] theorem State.drawn_config : (s.drawn x0 y0 n).config = s.config := by rw [State.drawn_eq]
@[simp] theorem State.drawn_mem : (s.drawn x0 y0 n).mem = s.mem := by rw [State.drawn_eq]
@[simp] theorem State.drawn_index : (s.drawn x0 y0 n).index = s.index := by rw [State.drawn_eq]
@[simp] theorem State.drawn_pc : (s.drawn x0 y0 n).pc = s.pc + 2 := by rw [State.drawn_eq]

theorem State.drawn_onlyFbRegsPc : s.OnlyFbRegsPc (s.drawn x0 y0 n) := by
  rw [State.OnlyFbRegsPc, State.drawn_pc]
  exact State.drawn_eq

theorem State.Inv.drawn (h : s.Inv) : (s.drawn x0 y0 n).Inv :=
  ((h.setReg flagReg 0x00).drawRows x0 y0 n).advance

theorem State.reg_drawn {r : Reg} (hr : r ≠ 15) : (s.drawn x0 y0 n).reg r = s.reg r := by
  rw [State.drawn, State.reg_advance, State.drawRows_reg hr, State.reg_setReg, if_neg hr]

theorem State.flag_drawn [Decidable (s.spriteSetsSome x0 y0 n)] :
    (s.drawn x0 y0 n).reg 15 = if s.spriteSetsSome x0 y0 n then 0x01 else 0x00 := by
  rw [State.drawn, State.reg_advance, State.drawRows_flag, State.reg_setReg_self]
  exact if_congr (State.spriteSetsSome_iff x0 y0 n).symm rfl rfl

theorem State.cell_drawn (h : s.Inv) {row col : Nat} (hrow : row < s.config.fbRows)
    (hcol : col < s.config.fbCols) : (s.drawn x0 y0 n).cell row col =
      if s.spriteSets x0 y0 n row col = true then s.cell row col ^^^ pixelOn else s.cell row col := by
  obtain ⟨-, hwf, -⟩ := h.setReg flagReg 0x00
  exact State.cell_drawRows hwf hrow hcol x0 y0 n

/-! ### The sprite -/

theorem State.spriteSets_iff {row col : Nat} : s.spriteSets x0 y0 n row col = true ↔
    y0 ≤ row ∧ row < y0 + n ∧ x0 ≤ col ∧ col < x0 + 8 ∧
      (s.load (s.index.toNat + (row - y0))).getLsbD (7 - (col - x0)) = true := by
  simp only [State.spriteSets, spriteBit, State.dataAddr_eq, spriteWidth, Bool.and_eq_true,
    decide_eq_true_eq, and_assoc]

/-- The sprite lies in memory at `I`, which drawing leaves alone: a second draw sets the same cells. -/
theorem State.spriteSets_drawn (row col : Nat) :
    (s.drawn x0 y0 n).spriteSets x0 y0 n row col = s.spriteSets x0 y0 n row col := by
  rw [State.drawn_eq]
  rfl

theorem State.spriteSetsSome_drawn :
    (s.drawn x0 y0 n).spriteSetsSome x0 y0 n ↔ s.spriteSetsSome x0 y0 n := by
  simp only [State.spriteSetsSome, State.drawn_config, State.spriteSets_drawn]

/-! ### Framebuffers with the same cells -/

/-- Every number inside the framebuffer's store is the number of a cell of the grid. -/
theorem exists_cellNumber_eq {c : Config} {a : Nat} (h : a < c.fbRows * c.fbCols) :
    ∃ row < c.fbRows, ∃ col < c.fbCols, cellNumber c row col = a :=
  have hpos : 0 < c.fbCols := Nat.pos_of_mul_pos_left (Nat.zero_lt_of_lt h)
  ⟨a / c.fbCols, Nat.div_lt_of_lt_mul (by rwa [Nat.mul_comm]), a % c.fbCols, Nat.mod_lt a hpos,
    Nat.div_add_mod' a c.fbCols⟩

/-- Two framebuffers of one size that agree on every cell of the grid are equal as data. -/
theorem State.fb_eq_of_cell_eq (hs : s.Inv) (ht : t.Inv) (hconfig : t.config = s.config)
    (h : ∀ row < s.config.fbRows, ∀ col < s.config.fbCols, t.cell row col = s.cell row col) :
    t.fb = s.fb := by
  obtain ⟨-, hswf, -⟩ := hs
  obtain ⟨-, htwf, -⟩ := ht
  rw [hconfig] at htwf
  refine Cells.ext_of_read htwf hswf fun a => ?_
  by_cases ha : a < s.config.fbRows * s.config.fbCols
  · obtain ⟨row, hrow, col, hcol, rfl⟩ := exists_cellNumber_eq ha
    have hcell := h row hrow col hcol
    rwa [State.cell, hconfig] at hcell
  · rw [Cells.read_of_ge htwf (not_lt.mp ha), Cells.read_of_ge hswf (not_lt.mp ha)]

/-! ### A second draw -/

/-- R196 (a) cell by cell: the second draw inverts the cells the first one inverted. -/
theorem State.fb_drawn_drawn (h : s.Inv) : ((s.drawn x0 y0 n).drawn x0 y0 n).fb = s.fb := by
  refine State.fb_eq_of_cell_eq h h.drawn.drawn (by simp) fun row hrow col hcol => ?_
  rw [State.cell_drawn h.drawn (by simpa) (by simpa), State.spriteSets_drawn, State.cell_drawn h hrow hcol]
  split
  · rw [BitVec.xor_assoc, BitVec.xor_self, BitVec.xor_zero]
  · rfl

theorem State.flag_drawn_drawn : ((s.drawn x0 y0 n).drawn x0 y0 n).reg 15 = (s.drawn x0 y0 n).reg 15 := by
  classical
  rw [State.flag_drawn, State.flag_drawn]
  exact if_congr State.spriteSetsSome_drawn rfl rfl

/-! ### The statements -/

/-- Settles O34, by the range of the row bytes: the drawn state, component by component, or the stop
before anything is drawn. -/
theorem drwXorsTheSprite : Obligations.DrwXorsTheSprite := by
  intro s x y n hinv
  refine ⟨decodeWord_of_encode_eq (encode_drw x y n) (decide_eq_true (Nat.le_of_lt_succ n.isLt)),
    fun hr => ?_, fun hpos hout => ?_⟩
  · classical
    refine ⟨_, exec_drw_of_inRange hr, fun row hrow col hcol => ?_, fun hset => ?_, fun hset => ?_,
      fun r => State.reg_drawn, State.drawn_pc, State.drawn_onlyFbRegsPc⟩
    · exact (State.cell_drawn hinv hrow hcol).trans (if_congr State.spriteSets_iff rfl rfl)
    · rw [State.flag_drawn, if_pos hset]
    · rw [State.flag_drawn, if_neg hset]
  · rw [exec_drw_of_outOfRange hpos hout, State.raise_of_fatal rfl]

/-- Settles O35: with neither coordinate in `VF`, the second DRW draws the same sprite at the same place. -/
theorem drawingTwiceRestoresTheFramebuffer : Obligations.DrawingTwiceRestoresTheFramebuffer := by
  intro s x y n hinv hx hy hr
  have hagain : exec (.drw x y n) (s.drawn (s.reg x).toNat (s.reg y).toNat n) = .next _ :=
    exec_drw_of_inRange (by rwa [State.drawn_index])
  rw [State.reg_drawn hx, State.reg_drawn hy] at hagain
  exact ⟨_, _, exec_drw_of_inRange hr, hagain, State.fb_drawn_drawn hinv, State.flag_drawn_drawn,
    by simp, by simp⟩

end Sys2Proof.Machine
end

section
/-! The stubs (R200 to R207): one equation for the seven instructions, which all raise cause 2. -/

namespace Sys2Proof.Machine

variable {s : State}

/-- R200, D9: the whole effect of any stub is the Halt sequence with cause 2. -/
theorem exec_of_isStub {i : Instr} (h : isStub i = true) : exec i s =
    .next { s with halted := true, haltCause := .unimplementedInstruction, pc := s.pc + 2 } := by
  have hstub : exec i s = s.stub := by
    cases i with
    | skp x | sknp x | gdt x | wkey x | sdt x | sst x | bcd x => rfl
    | _ => exact absurd h Bool.false_ne_true
  rw [hstub, State.stub, State.raise_of_halt rfl]

/-- The word that encodes a well-formed stub decodes to it, and the stub halts. -/
theorem haltsAsStub_of_encode_eq {i : Instr} {w : Word} (h : encode i = w)
    (hi : i.wellFormed = true) (hstub : isStub i = true) : HaltsAsStub w i s :=
  ⟨decodeWord_of_encode_eq h hi, exec_of_isStub hstub⟩

/-- Settles O37: each stub's word is its format with `X` placed in it, and every stub halts alike. -/
theorem stubsHalt : Obligations.StubsHalt := by
  intro s x
  refine ⟨?skp, ?sknp, ?gdt, ?wkey, ?sdt, ?sst, ?bcd⟩
  case skp => exact haltsAsStub_of_encode_eq (or_placeX 0xE x 0x9E) rfl rfl
  case sknp => exact haltsAsStub_of_encode_eq (or_placeX 0xE x 0xA1) rfl rfl
  case gdt => exact haltsAsStub_of_encode_eq (or_placeX 0xF x 0x07) rfl rfl
  case wkey => exact haltsAsStub_of_encode_eq (or_placeX 0xF x 0x0A) rfl rfl
  case sdt => exact haltsAsStub_of_encode_eq (or_placeX 0xF x 0x15) rfl rfl
  case sst => exact haltsAsStub_of_encode_eq (or_placeX 0xF x 0x18) rfl rfl
  case bcd => exact haltsAsStub_of_encode_eq (or_placeX 0xF x 0x33) rfl rfl

end Sys2Proof.Machine
end

section
/-! The listing and the spec's example strings (R211 to R213): a listing of a program that fits is its
lines from `0x200` on, whose number and text are the laws of `State.linesFrom`. -/

namespace Sys2Proof.Machine

variable {s : State}

theorem listing_eq {len : Nat} (h : len ≤ maxProgLen) :
    listing s len = .next (s.linesFrom progBase ((len + 1) / 2)) :=
  if_pos h

/-- A line of a listing, by the big-endian number of its two bytes. -/
theorem State.linesFrom_getElem_of_toNat {a count k : Nat} (hk : k < (s.linesFrom a count).length)
    {w : Word} (hw : w.toNat = 256 * (s.load (a + 2 * k)).toNat + (s.load (a + 2 * k + 1)).toNat) :
    (s.linesFrom a count)[k] = disasm w := by
  have hword : s.wordAt (a + 2 * k) = w := composeWord_of_toNat hw
  rw [State.linesFrom_getElem, hword]

/-- Settles O51: the listing is `(len + 1) / 2` lines from `0x200` on, an odd last byte being paired
with the one after it (D24). -/
theorem listingIsLinear : Obligations.ListingIsLinear := by
  intro s len hlen
  refine ⟨_, listing_eq hlen, ?_, fun k hk w hw => State.linesFrom_getElem_of_toNat hk hw⟩
  rw [State.linesFrom_length]
  omega

/-- Settles O49, by computing the nine lookups and their texts. -/
theorem disassemblyOfTheExamples : Obligations.DisassemblyOfTheExamples := by
  unfold Obligations.DisassemblyOfTheExamples
  decide

end Sys2Proof.Machine
end

section
/-! Stopping (R220 to R231): the cause a cycle raises as a function of the state before it, the condition
of R221 for each of its values, and what the cycle that sets `halted` leaves alone. -/

namespace Sys2Proof.Machine

variable {s t : State} {i : Instr}

/-! ### The cause of a cycle -/

/-- The cause the instruction `i` raises in `s` (R223, R228 to R230); `NONE` when it completes. -/
def State.execCause (s : State) : Instr → HaltCause
  | .skp _ | .sknp _ | .gdt _ | .wkey _ | .sdt _ | .sst _ | .bcd _ => .unimplementedInstruction
  | .call _ => if s.sp = 16 then .stackOverflow else .none
  | .ret => if s.sp = 0 then .stackUnderflow else .none
  | .stm x | .ldm x => if s.index.toNat + x.val > 0xFFF then .memOutOfBounds else .none
  | .drw _ _ n => if n > 0 ∧ s.index.toNat + (n - 1) > 0xFFF then .memOutOfBounds else .none
  | .jp _ | .sei _ _ | .snei _ _ | .ser _ _ | .movi _ _ | .addi _ _ | .mov _ _ | .or _ _ | .and _ _
  | .xor _ _ | .add _ _ | .subr _ _ | .shr _ _ | .shl _ _ | .sner _ _ | .iset _ | .iadd _ | .ifont _ =>
    .none

/-- The cause a cycle raises in a running `s`, in the order of R227: the fetch, the lookup, the
instruction. -/
def State.cycleCause (s : State) : HaltCause :=
  if s.pc.toNat > 0xFFE then .fetchOutOfBounds
  else match s.nextInstr with
    | none => .unknownInstruction
    | some i => s.execCause i

theorem State.cycleCause_of_pc_gt (h : s.pc.toNat > 0xFFE) : s.cycleCause = .fetchOutOfBounds :=
  if_pos h

theorem State.cycleCause_of_nextInstr_eq_none (hpc : s.pc.toNat ≤ 0xFFE) (h : s.nextInstr = none) :
    s.cycleCause = .unknownInstruction := by
  rw [State.cycleCause, if_neg (by omega), h]

theorem State.pc_le_of_nextInstr (h : s.nextInstr = some i) : s.pc.toNat ≤ 0xFFE := by
  by_contra hpc
  simp [State.nextInstr, hpc] at h

theorem State.cycleCause_of_nextInstr (h : s.nextInstr = some i) : s.cycleCause = s.execCause i := by
  have hpc := State.pc_le_of_nextInstr h
  rw [State.cycleCause, if_neg (by omega), h]

/-! ### What a cycle leaves in `halt_cause` -/

/-- The cause of an instruction is `State.execCause`; one that completes leaves `halt_cause` as it was. -/
theorem haltCause_of_exec (hnone : s.haltCause = .none) (h : exec i s = .next t) :
    t.haltCause = s.execCause i := by
  cases i with
  | call nnn =>
    obtain ⟨hsp, he⟩ | ⟨hsp, he⟩ | ⟨-, he⟩ := exec_call nnn s <;> cases he.symm.trans h
    · simp [State.execCause, ← BitVec.toNat_inj, hsp.ne, hnone]
    · simp [State.execCause, ← BitVec.toNat_inj, hsp]
  | ret =>
    obtain ⟨j, hj, he⟩ | ⟨hsp, he⟩ | ⟨-, he⟩ := exec_ret s <;> cases he.symm.trans h
    · simp [State.execCause, ← BitVec.toNat_inj, hj, hnone]
    · simp [State.execCause, ← BitVec.toNat_inj, hsp]
  | stm x =>
    obtain ⟨hr, he⟩ | ⟨hout, he⟩ := exec_stm x s <;> cases he.symm.trans h
    · rw [State.storeRegs_advance_eq, State.execCause, if_neg hr.not_gt, hnone]
    · exact (if_pos hout).symm
  | ldm x =>
    obtain ⟨hr, he⟩ | ⟨hout, he⟩ := exec_ldm x s <;> cases he.symm.trans h
    · rw [State.loadRegs_advance_eq, State.execCause, if_neg hr.not_gt, hnone]
    · exact (if_pos hout).symm
  | drw x y n =>
    obtain ⟨hr, he⟩ | ⟨hpos, hout, he⟩ := exec_drw x y n s <;> cases he.symm.trans h
    · rw [State.drawRows_advance_eq, State.execCause, if_neg (by omega), hnone]
    · exact (if_pos ⟨hpos, hout⟩).symm
  | skp | sknp | gdt | wkey | sdt | sst | bcd =>
    cases h
    rfl
  | jp | sei | snei | ser | movi | addi | mov | or | and | xor | add | subr | shr | shl | sner | iset
  | iadd | ifont =>
    cases h
    exact hnone

theorem haltCause_of_step (hinv : s.Inv) (hrun : s.halted = false) (h : step s = .next t) :
    t.haltCause = s.cycleCause := by
  obtain ⟨hhalt, -⟩ | ⟨-, hpc, -, he⟩ | ⟨-, hpc, hnext, he⟩ | ⟨i, -, -, hnext, he⟩ := step_cases s
  · simp [hrun] at hhalt
  · cases he.symm.trans h
    exact (State.cycleCause_of_pc_gt hpc).symm
  · cases he.symm.trans h
    exact (State.cycleCause_of_nextInstr_eq_none hpc hnext).symm
  · rw [State.cycleCause_of_nextInstr hnext]
    exact haltCause_of_exec (hinv.haltCause_of_running hrun) (he.symm.trans h)

theorem State.Inv.halted_eq_false_iff (h : s.Inv) : s.halted = false ↔ s.haltCause = .none := by
  obtain ⟨-, -, -, -, hcause, -⟩ := h
  simp [hcause]

theorem inv_of_step (hinv : s.Inv) (h : step s = .next t) : t.Inv := by
  obtain ⟨u, hu, huinv⟩ := stepKeepsTheInvariant s hinv
  cases hu.symm.trans h
  exact huinv

/-! ### The condition of each cause (R221) -/

theorem State.execCause_ne_unknownInstruction : s.execCause i ≠ .unknownInstruction := by
  cases i <;> simp [State.execCause, ite_eq_iff]

theorem State.execCause_ne_fetchOutOfBounds : s.execCause i ≠ .fetchOutOfBounds := by
  cases i <;> simp [State.execCause, ite_eq_iff]

theorem State.execCause_eq_unimplementedInstruction_iff :
    s.execCause i = .unimplementedInstruction ↔ isStub i = true := by
  cases i <;> simp [State.execCause, isStub, ite_eq_iff]

theorem State.execCause_eq_stackOverflow_iff :
    s.execCause i = .stackOverflow ↔ (∃ nnn, i = .call nnn) ∧ s.sp = 16 := by
  cases i <;> simp [State.execCause, ite_eq_iff]

theorem State.execCause_eq_stackUnderflow_iff :
    s.execCause i = .stackUnderflow ↔ i = .ret ∧ s.sp = 0 := by
  cases i <;> simp [State.execCause, ite_eq_iff]

theorem State.execCause_eq_memOutOfBounds_iff : s.execCause i = .memOutOfBounds ↔
    (∃ x : Reg, (i = .stm x ∨ i = .ldm x) ∧ s.index.toNat + x.val > 0xFFF) ∨
    (∃ x y n, i = .drw x y n ∧ n > 0 ∧ s.index.toNat + (n - 1) > 0xFFF) := by
  cases i <;> simp [State.execCause, ite_eq_iff]

theorem State.cycleCause_eq_fetchOutOfBounds_iff :
    s.cycleCause = .fetchOutOfBounds ↔ s.pc.toNat > 0xFFE := by
  refine ⟨fun h => ?_, State.cycleCause_of_pc_gt⟩
  by_contra hpc
  cases hnext : s.nextInstr with
  | none => cases (State.cycleCause_of_nextInstr_eq_none (by omega) hnext).symm.trans h
  | some i => exact State.execCause_ne_fetchOutOfBounds ((State.cycleCause_of_nextInstr hnext).symm.trans h)

theorem State.cycleCause_eq_unknownInstruction_iff :
    s.cycleCause = .unknownInstruction ↔ s.pc.toNat ≤ 0xFFE ∧ s.nextInstr = none := by
  refine ⟨fun h => ?_, fun ⟨hpc, hnext⟩ => State.cycleCause_of_nextInstr_eq_none hpc hnext⟩
  constructor
  · by_contra hpc
    cases (State.cycleCause_of_pc_gt (by omega)).symm.trans h
  · rw [Option.eq_none_iff_forall_ne_some]
    exact fun i hnext =>
      State.execCause_ne_unknownInstruction ((State.cycleCause_of_nextInstr hnext).symm.trans h)

/-- A cause that neither the fetch nor the lookup raises is the instruction's. -/
theorem State.cycleCause_eq_iff_exists {c : HaltCause} (hfetch : c ≠ .fetchOutOfBounds)
    (hlookup : c ≠ .unknownInstruction) :
    s.cycleCause = c ↔ ∃ i, s.nextInstr = some i ∧ s.execCause i = c := by
  refine ⟨fun h => ?_, fun ⟨i, hnext, hi⟩ => (State.cycleCause_of_nextInstr hnext).trans hi⟩
  have hpc : s.pc.toNat ≤ 0xFFE := by
    by_contra hpc
    exact hfetch (h.symm.trans (State.cycleCause_of_pc_gt (by omega)))
  cases hnext : s.nextInstr with
  | none => exact absurd (h.symm.trans (State.cycleCause_of_nextInstr_eq_none hpc hnext)) hlookup
  | some i => exact ⟨i, rfl, (State.cycleCause_of_nextInstr hnext).symm.trans h⟩

/-! ### The code of a cause -/

theorem HaltCause.code_inj {c d : HaltCause} : c.code = d.code ↔ c = d := by
  cases c <;> cases d <;> decide

/-- Settles O39: the code after the cycle is that of `State.cycleCause`, whose values are the table of
R221. -/
theorem haltCauseSaysWhatHappened : Obligations.HaltCauseSaysWhatHappened := by
  intro s t hinv hrun hstep
  have hcode : ∀ c : HaltCause, haltCauseOut t = c.code ↔ s.cycleCause = c := fun c => by
    rw [haltCauseOut, HaltCause.code_inj, haltCause_of_step hinv hrun hstep]
  have hexec : ∀ c : HaltCause, c ≠ .fetchOutOfBounds → c ≠ .unknownInstruction →
      (haltCauseOut t = c.code ↔ ∃ i, s.nextInstr = some i ∧ s.execCause i = c) :=
    fun c hfetch hlookup => (hcode c).trans (State.cycleCause_eq_iff_exists hfetch hlookup)
  refine ⟨?running, ?unknown, ?stub, ?overflow, ?underflow, ?memory, ?fetch⟩
  case running =>
    exact (inv_of_step hinv hstep).halted_eq_false_iff.trans (HaltCause.code_inj (d := .none)).symm
  case unknown => exact (hcode .unknownInstruction).trans State.cycleCause_eq_unknownInstruction_iff
  case stub =>
    refine (hexec .unimplementedInstruction (by decide) (by decide)).trans ?_
    simp only [State.execCause_eq_unimplementedInstruction_iff]
  case overflow =>
    refine (hexec .stackOverflow (by decide) (by decide)).trans ?_
    simp only [State.execCause_eq_stackOverflow_iff]
    cases s.nextInstr <;> simp
  case underflow =>
    refine (hexec .stackUnderflow (by decide) (by decide)).trans ?_
    simp [State.execCause_eq_stackUnderflow_iff]
  case memory =>
    refine (hexec .memOutOfBounds (by decide) (by decide)).trans ?_
    simp only [State.execCause_eq_memOutOfBounds_iff]
    cases s.nextInstr <;> simp
  case fetch => exact (hcode .fetchOutOfBounds).trans State.cycleCause_eq_fetchOutOfBounds_iff

/-! ### The cycle that sets `halted` -/

/-- An effect that sets `halted` in a running machine is a stop. -/
theorem Effect.eq_raise (e : Effect s i t) (hrun : s.halted = false) (hhalt : t.halted = true) :
    t = s.raise t.haltCause := by
  cases e with
  | stop c => rfl
  | jump | push | pop | skip | regs | index | store | draw =>
    exact absurd (hrun.symm.trans hhalt) Bool.false_ne_true

theorem eq_raise_of_step (hrun : s.halted = false) (h : step s = .next t) (hhalt : t.halted = true) :
    t = s.raise t.haltCause := by
  obtain ⟨hs, -⟩ | ⟨-, -, -, he⟩ | ⟨-, -, -, he⟩ | ⟨i, -, -, -, he⟩ := step_cases s
  · simp [hrun] at hs
  · cases he.symm.trans h
    rfl
  · cases he.symm.trans h
    rfl
  · exact (effect_of_exec_eq_next (he.symm.trans h)).eq_raise hrun hhalt

theorem HaltCause.eq_of_not_fatal {c : HaltCause} (hne : c ≠ .none) (h : c.isFatal = false) :
    c = .unknownInstruction ∨ c = .unimplementedInstruction := by
  cases c with
  | none => exact absurd rfl hne
  | unknownInstruction => exact .inl rfl
  | unimplementedInstruction => exact .inr rfl
  | stackOverflow | stackUnderflow | memOutOfBounds | fetchOutOfBounds => cases h

theorem HaltCause.code_of_fatal {c : HaltCause} (h : c.isFatal = true) :
    c.code = 3 ∨ c.code = 4 ∨ c.code = 5 ∨ c.code = 6 := by
  cases c with
  | none | unknownInstruction | unimplementedInstruction => cases h
  | stackOverflow | stackUnderflow | memOutOfBounds | fetchOutOfBounds => decide

/-- Settles O38: the cycle is the Halt or the Fatal sequence of its cause, by the class of that cause. -/
theorem haltingCycleChangesNothingElse : Obligations.HaltingCycleChangesNothingElse := by
  intro s t hinv hrun hstep hhalt
  refine ⟨hhalt ▸ cycle_of_step hstep, ?_⟩
  have hraise := eq_raise_of_step hrun hstep hhalt
  cases hclass : t.haltCause.isFatal with
  | true =>
    rw [State.raise_of_fatal hclass] at hraise
    exact .inr ⟨HaltCause.code_of_fatal hclass, by simp [State.EndedInFault, hhalt, hclass], hraise⟩
  | false =>
    have hne : t.haltCause ≠ .none := fun hnone => by
      simp [(inv_of_step hinv hstep).halted_eq_false_iff.2 hnone] at hhalt
    rw [State.raise_of_halt hclass] at hraise
    obtain hc | hc := HaltCause.eq_of_not_fatal hne hclass
    · exact .inl ⟨.inl (congrArg HaltCause.code hc), by simp [State.EndedDefined, hhalt, hc], hraise⟩
    · exact .inl ⟨.inr (congrArg HaltCause.code hc), by simp [State.EndedDefined, hhalt, hc], hraise⟩

/-- Settles O10: the step is the Fatal sequence of cause 6 (R225), written out. -/
theorem fetchOutOfBoundsIsFatal : Obligations.FetchOutOfBoundsIsFatal := by
  intro s hrun hpc
  rw [step_of_pc_gt hrun hpc, State.raise_of_fatal rfl]

end Sys2Proof.Machine
end

section
/-! The host's ports that the CORE answers at once (R251, R255, R257): the framebuffer readout, the
refusals, and the writes of keys and timers. -/

namespace Sys2Proof.Machine

variable {s : State} {row col : Nat}

theorem fbRead_of_inGrid (h : row < s.config.fbRows ∧ col < s.config.fbCols) :
    fbRead s row col = .next (s.cell row col) :=
  if_pos h

theorem fbRead_of_outOfGrid (h : ¬ (row < s.config.fbRows ∧ col < s.config.fbCols)) :
    fbRead s row col = .refused .noSuchPixel :=
  if_neg h

theorem State.Inv.cell_eq_off_or_on (h : s.Inv) (row col : Nat) :
    s.cell row col = pixelOff ∨ s.cell row col = pixelOn := by
  obtain ⟨-, -, htwo, -⟩ := h
  exact Framebuffer.read_twoValued htwo _

/-- Settles O36: the invariant keeps the framebuffer two-valued (R34). -/
theorem fbReadGivesOffOrOn : Obligations.FbReadGivesOffOrOn := by
  intro s row col hinv
  exact ⟨fun h => ⟨_, fbRead_of_inGrid h, rfl, hinv.cell_eq_off_or_on row col⟩, fbRead_of_outOfGrid⟩

/-- Settles O46: the length check of `construct` comes before any write (D22). -/
theorem overlongImageIsRefused : Obligations.OverlongImageIsRefused := by
  intro c image hlong
  exact if_neg hlong.not_ge

/-- Read after write in the keys. -/
theorem keyWrite_keys_getElem (k : Fin 16) (b : Bool) (j : Fin 16) :
    (keyWrite s k b).keys[j] = if j = k then b else s.keys[j] := by
  simp only [keyWrite_keys, Fin.getElem_fin, Vector.getElem_set, Fin.val_inj, eq_comm]

/-- Settles O47: a key written reads back and no other changes; each write is an update of one field. -/
theorem hostWritesSetOneInput : Obligations.HostWritesSetOneInput := by
  intro s k b v
  exact ⟨keyWrite_keys_getElem k b, rfl, rfl, rfl⟩

end Sys2Proof.Machine
end
